-- ==== Sys2Proof/Word.lean ====
section
/-! DEFINITION. The word types of the CHIP-8 core: spec 00_scope.md R7, 30_encoding.md R81. -/

namespace Sys2Proof

/-- One byte of memory, one general register, the immediate NN (00_scope.md R7: V_WIDTH = 8). -/
abbrev Byte := BitVec 8

/-- The instruction word, PC, I and a stack entry: 16 bits (00_scope.md R7, 10_state.md R28). -/
abbrev Word := BitVec 16

/-- One of the four 4-bit fields of an instruction word (30_encoding.md R81). -/
abbrev Nibble := BitVec 4

/-- A register index X or Y: 4 bits, all 16 values legal (30_encoding.md R84). -/
abbrev RegIdx := BitVec 4

/-- The 12-bit immediate NNN (30_encoding.md R83). -/
abbrev Addr12 := BitVec 12

end Sys2Proof
end

