-- ==== Sys2Proof/Syntax.lean ====
section
/-! DEFINITION. The instructions: one constructor per row of spec/opcode_table.json (30_encoding.md R88). -/

namespace Sys2Proof

/-- The 17 implemented instructions, in the order of 30_encoding.md R88. Operands have the exact widths of R81 to R84,
so every term is an instruction of the table. -/
inductive Instr where
  /-- 00E0, clear the display (43_display.md R180). -/
  | cls
  /-- 00EE, return from subroutine (40_flow.md R111). -/
  | ret
  /-- 1NNN, jump (40_flow.md R112). -/
  | jp (nnn : Addr12)
  /-- 2NNN, call subroutine (40_flow.md R113). -/
  | call (nnn : Addr12)
  /-- 3XNN, skip if V[X] = NN (40_flow.md R114). -/
  | seImm (x : RegIdx) (nn : Byte)
  /-- 4XNN, skip if V[X] differs from NN (40_flow.md R115). -/
  | sneImm (x : RegIdx) (nn : Byte)
  /-- 5XY0, skip if V[X] = V[Y] (40_flow.md R116). -/
  | seReg (x y : RegIdx)
  /-- 6XNN, load immediate (41_alu.md R141). -/
  | ldImm (x : RegIdx) (nn : Byte)
  /-- 7XNN, add immediate without carry (41_alu.md R142). -/
  | addImm (x : RegIdx) (nn : Byte)
  /-- 8XY0, copy register (41_alu.md R146). -/
  | ldReg (x y : RegIdx)
  /-- 8XY1, bitwise OR (41_alu.md R147). -/
  | orReg (x y : RegIdx)
  /-- 8XY2, bitwise AND (41_alu.md R148). -/
  | andReg (x y : RegIdx)
  /-- 8XY3, bitwise exclusive OR (41_alu.md R149). -/
  | xorReg (x y : RegIdx)
  /-- 8XY4, add with carry out (41_alu.md R151). -/
  | addReg (x y : RegIdx)
  /-- 9XY0, skip if V[X] differs from V[Y] (40_flow.md R117). -/
  | sneReg (x y : RegIdx)
  /-- ANNN, load the index register (42_index.md R170). -/
  | ldI (nnn : Addr12)
  /-- DXYN, draw an N-row sprite at (V[X], V[Y]) (43_display.md R183). -/
  | drw (x y : RegIdx) (n : Nibble)
  deriving DecidableEq, Repr

end Sys2Proof
end

