-- ==== Sys2Proof/WellFormed.lean ====
section
/-! DEFINITION. Well-formed listing lines (spec 30_encoding.md R94, R95). An `Instr` has operands of the exact widths, so
nothing about it is left to check; what can be ill formed is a line of a listing, whose operands are plain numbers that
"must fit 8, 12 and 4 bits" (R95) and whose mnemonic must stand with the operands R94 gives it. -/

namespace Sys2Proof

/-- The mnemonics of 30_encoding.md R94, and the listing directive DW of R95 as a line of its own. -/
inductive Mnem where
  | CLS | RET | JP | CALL | SE | SNE | LD | ADD | OR | AND | XOR | DRW
  deriving DecidableEq, Repr

/-- An operand as a listing writes it: a register `V0`..`VF`, the index register `I`, or a hexadecimal immediate. -/
inductive Operand where
  | v (k : Nat)
  | i
  | imm (k : Nat)
  deriving DecidableEq, Repr

/-- One line of a listing: a mnemonic with its operands, destination first (R94), or `DW 0xhhhh` (R95). -/
inductive Line where
  | stmt (m : Mnem) (ops : List Operand)
  | dw (w : Nat)
  deriving DecidableEq, Repr

/-- Why a line is refused. -/
inductive FormError where
  /-- R94 has no row with this mnemonic and these kinds of operands. -/
  | noSuchForm
  /-- A register index beyond F (R84). -/
  | registerIndex (k : Nat)
  /-- An immediate that does not fit its field's bits (R95). -/
  | immediateTooWide (bits k : Nat)
  deriving DecidableEq, Repr

/-- R84: a register index is 0..15. -/
def checkReg (k : Nat) : Option FormError := if k < 16 then none else some (.registerIndex k)

/-- R95: an immediate fits its field. -/
def checkImm (bits k : Nat) : Option FormError := if k < 2 ^ bits then none else some (.immediateTooWide bits k)

/-- What is wrong with a line, if anything: one arm per row of R94's table, and R95's DW. -/
def Line.check : Line → Option FormError
  | .stmt .CLS [] => none
  | .stmt .RET [] => none
  | .stmt .JP [.imm a] => checkImm 12 a
  | .stmt .CALL [.imm a] => checkImm 12 a
  | .stmt .SE [.v x, .imm k] => checkReg x <|> checkImm 8 k
  | .stmt .SNE [.v x, .imm k] => checkReg x <|> checkImm 8 k
  | .stmt .SE [.v x, .v y] => checkReg x <|> checkReg y
  | .stmt .LD [.v x, .imm k] => checkReg x <|> checkImm 8 k
  | .stmt .ADD [.v x, .imm k] => checkReg x <|> checkImm 8 k
  | .stmt .LD [.v x, .v y] => checkReg x <|> checkReg y
  | .stmt .OR [.v x, .v y] => checkReg x <|> checkReg y
  | .stmt .AND [.v x, .v y] => checkReg x <|> checkReg y
  | .stmt .XOR [.v x, .v y] => checkReg x <|> checkReg y
  | .stmt .ADD [.v x, .v y] => checkReg x <|> checkReg y
  | .stmt .SNE [.v x, .v y] => checkReg x <|> checkReg y
  | .stmt .LD [.i, .imm a] => checkImm 12 a
  | .stmt .DRW [.v x, .v y, .imm n] => checkReg x <|> checkReg y <|> checkImm 4 n
  | .dw w => checkImm 16 w
  | .stmt _ _ => some .noSuchForm

/-- A line is well formed if nothing is wrong with it. -/
def Line.wf (l : Line) : Bool := l.check.isNone

/-- The line R94's table writes for an instruction. -/
def Instr.line : Instr → Line
  | .cls => .stmt .CLS []
  | .ret => .stmt .RET []
  | .jp a => .stmt .JP [.imm a.toNat]
  | .call a => .stmt .CALL [.imm a.toNat]
  | .seImm x k => .stmt .SE [.v x.toNat, .imm k.toNat]
  | .sneImm x k => .stmt .SNE [.v x.toNat, .imm k.toNat]
  | .seReg x y => .stmt .SE [.v x.toNat, .v y.toNat]
  | .ldImm x k => .stmt .LD [.v x.toNat, .imm k.toNat]
  | .addImm x k => .stmt .ADD [.v x.toNat, .imm k.toNat]
  | .ldReg x y => .stmt .LD [.v x.toNat, .v y.toNat]
  | .orReg x y => .stmt .OR [.v x.toNat, .v y.toNat]
  | .andReg x y => .stmt .AND [.v x.toNat, .v y.toNat]
  | .xorReg x y => .stmt .XOR [.v x.toNat, .v y.toNat]
  | .addReg x y => .stmt .ADD [.v x.toNat, .v y.toNat]
  | .sneReg x y => .stmt .SNE [.v x.toNat, .v y.toNat]
  | .ldI a => .stmt .LD [.i, .imm a.toNat]
  | .drw x y n => .stmt .DRW [.v x.toNat, .v y.toNat, .imm n.toNat]

end Sys2Proof
end

