-- ==== Sys2Proof/Decode.lean ====
section
/-! DEFINITION. From bytes to an instruction and back: the fields of a word (spec 30_encoding.md R81), the dispatch on them
(R87, R89), the opcode table (R88), and the encoder (R88, R95). -/

namespace Sys2Proof

/-- 20_memory.md R54: the byte at the lower address is the high byte. -/
def wordOfBytes (hi lo : Byte) : Word := hi ++ lo

/-- The high byte of a word, which stands at the lower address (20_memory.md R54). -/
def hiByte (w : Word) : Byte := w.extractLsb' 8 8

/-- The low byte of a word (20_memory.md R54). -/
def loByte (w : Word) : Byte := w.extractLsb' 0 8

/-- What the decoder splits a word into (30_encoding.md R81). -/
structure Fields where
  n1 : Nibble
  n2 : Nibble
  n3 : Nibble
  n4 : Nibble
  nn : Byte
  nnn : Addr12
  word : Word
  deriving DecidableEq, Repr

/-- 30_encoding.md R81: X is nibble 2. -/
def Fields.x (f : Fields) : RegIdx := f.n2

/-- 30_encoding.md R81: Y is nibble 3. -/
def Fields.y (f : Fields) : RegIdx := f.n3

/-- 30_encoding.md R81: N is nibble 4. -/
def Fields.n (f : Fields) : Nibble := f.n4

/-- R81's Decode: "pure, stateless, and total over all 65536 possible instruction words" (R82). -/
def decodeFields (w : Word) : Fields :=
  { n1 := w.extractLsb' 12 4, n2 := w.extractLsb' 8 4, n3 := w.extractLsb' 4 4, n4 := w.extractLsb' 0 4,
    nn := w.extractLsb' 0 8, nnn := w.extractLsb' 0 12, word := w }

/-- Dispatch on the nibble pattern, by class nibble n1 as 30_encoding.md R89 maps it. Patterns match exactly (R93, D8);
`none` is an unimplemented word (R91). -/
def dispatch (f : Fields) : Option Instr :=
  match f.n1 with
  | 0x0#4 => if f.word = 0x00E0#16 then some .cls else if f.word = 0x00EE#16 then some .ret else none
  | 0x1#4 => some (.jp f.nnn)
  | 0x2#4 => some (.call f.nnn)
  | 0x3#4 => some (.seImm f.x f.nn)
  | 0x4#4 => some (.sneImm f.x f.nn)
  | 0x5#4 => if f.n4 = 0x0#4 then some (.seReg f.x f.y) else none
  | 0x6#4 => some (.ldImm f.x f.nn)
  | 0x7#4 => some (.addImm f.x f.nn)
  | 0x8#4 =>
    match f.n4 with
    | 0x0#4 => some (.ldReg f.x f.y)
    | 0x1#4 => some (.orReg f.x f.y)
    | 0x2#4 => some (.andReg f.x f.y)
    | 0x3#4 => some (.xorReg f.x f.y)
    | 0x4#4 => some (.addReg f.x f.y)
    | _ => none
  | 0x9#4 => if f.n4 = 0x0#4 then some (.sneReg f.x f.y) else none
  | 0xA#4 => some (.ldI f.nnn)
  | 0xD#4 => some (.drw f.x f.y f.n)
  | _ => none

/-- The instruction a word stands for, if it is implemented. -/
def decodeWord (w : Word) : Option Instr := dispatch (decodeFields w)

/-- Why bytes are no instruction. -/
inductive DecodeError where
  /-- Fewer than the two bytes every instruction has (30_encoding.md R80). -/
  | truncated
  /-- The word matches no row of the table (30_encoding.md R91). -/
  | unimplementedOpcode (w : Word)
  deriving DecidableEq, Repr

/-- The instruction at the head of some bytes and the bytes after it: every instruction is exactly two bytes (R80). -/
def decode : List Byte → Except DecodeError (Instr × List Byte)
  | hi :: lo :: rest =>
    match decodeWord (wordOfBytes hi lo) with
    | some i => .ok (i, rest)
    | none => .error (.unimplementedOpcode (wordOfBytes hi lo))
  | _ => .error .truncated

/-- The word of an instruction: each pattern of 30_encoding.md R88 with its letters filled in (R95). -/
def encode : Instr → Word
  | .cls => 0x00E0#16
  | .ret => 0x00EE#16
  | .jp nnn => 0x1#4 ++ nnn
  | .call nnn => 0x2#4 ++ nnn
  | .seImm x nn => 0x3#4 ++ x ++ nn
  | .sneImm x nn => 0x4#4 ++ x ++ nn
  | .seReg x y => 0x5#4 ++ x ++ y ++ 0x0#4
  | .ldImm x nn => 0x6#4 ++ x ++ nn
  | .addImm x nn => 0x7#4 ++ x ++ nn
  | .ldReg x y => 0x8#4 ++ x ++ y ++ 0x0#4
  | .orReg x y => 0x8#4 ++ x ++ y ++ 0x1#4
  | .andReg x y => 0x8#4 ++ x ++ y ++ 0x2#4
  | .xorReg x y => 0x8#4 ++ x ++ y ++ 0x3#4
  | .addReg x y => 0x8#4 ++ x ++ y ++ 0x4#4
  | .sneReg x y => 0x9#4 ++ x ++ y ++ 0x0#4
  | .ldI nnn => 0xA#4 ++ nnn
  | .drw x y n => 0xD#4 ++ x ++ y ++ n

/-- The two bytes of a word as memory holds them, high byte first (20_memory.md R54). -/
def bytesOfWord (w : Word) : List Byte := [hiByte w, loByte w]

/-- The two bytes of an instruction as memory holds them. -/
def encodeBytes (i : Instr) : List Byte := bytesOfWord (encode i)

/-- One row of the opcode table (30_encoding.md R88): its number, match and mask. -/
structure OpcodeRow where
  number : Nat
  fixed : Word
  mask : Word
  deriving DecidableEq, Repr

/-- 30_encoding.md R87: a row fits a word if `(word AND mask) = match`. -/
def OpcodeRow.fits (r : OpcodeRow) (w : Word) : Bool := (w &&& r.mask) == r.fixed

/-- The complete opcode table of 30_encoding.md R88. -/
def opcodeTable : List OpcodeRow :=
  [⟨1, 0x00E0, 0xFFFF⟩, ⟨2, 0x00EE, 0xFFFF⟩, ⟨3, 0x1000, 0xF000⟩, ⟨4, 0x2000, 0xF000⟩,
   ⟨5, 0x3000, 0xF000⟩, ⟨6, 0x4000, 0xF000⟩, ⟨7, 0x5000, 0xF00F⟩, ⟨8, 0x6000, 0xF000⟩,
   ⟨9, 0x7000, 0xF000⟩, ⟨10, 0x8000, 0xF00F⟩, ⟨11, 0x8001, 0xF00F⟩, ⟨12, 0x8002, 0xF00F⟩,
   ⟨13, 0x8003, 0xF00F⟩, ⟨14, 0x8004, 0xF00F⟩, ⟨15, 0x9000, 0xF00F⟩, ⟨16, 0xA000, 0xF000⟩,
   ⟨17, 0xD000, 0xF000⟩]

/-- The number of an instruction's row in the table of 30_encoding.md R88. -/
def Instr.row : Instr → Nat
  | .cls => 1
  | .ret => 2
  | .jp _ => 3
  | .call _ => 4
  | .seImm _ _ => 5
  | .sneImm _ _ => 6
  | .seReg _ _ => 7
  | .ldImm _ _ => 8
  | .addImm _ _ => 9
  | .ldReg _ _ => 10
  | .orReg _ _ => 11
  | .andReg _ _ => 12
  | .xorReg _ _ => 13
  | .addReg _ _ => 14
  | .sneReg _ _ => 15
  | .ldI _ => 16
  | .drw _ _ _ => 17

/-- The instruction word whose bits spec/opcode_table.json numbers as `w`: one 16-bit word, the bits above `nbits` 0. -/
def tableWord (nbits w : Nat) : Word := BitVec.ofNat 16 (w % 2 ^ nbits)

/-- The instruction the decoder reads from a table row's word: the word laid out high byte first and given to `decode`. -/
def decodeTableWord (nbits w : Nat) : Option Instr :=
  match decode (bytesOfWord (tableWord nbits w)) with
  | .ok (i, _) => some i
  | .error _ => none

end Sys2Proof
end

