-- ==== Sys2Proof/Config.lean ====
section
/-! DEFINITION. The four configuration parameters of spec 00_scope.md R8, as plain data. Their default values, which a
test could show wrong, stand in Machine/Params.lean. -/

namespace Sys2Proof

/-- ALU_MODE (41_alu.md R143): which register is the first operand of 8XY1 to 8XY4. -/
inductive AluMode where
  /-- V[X] op V[Y], the default (D1). -/
  | standard
  /-- V[Y] op V[Y], as the Python source computes it. -/
  | sourceFaithful
  deriving DecidableEq, Repr

/-- COLLISION_MODE (43_display.md R187): whether DXYN writes VF. -/
inductive CollisionMode where
  /-- DXYN writes the collision flag into VF, the default (D2). -/
  | standard
  /-- DXYN never writes VF. -/
  | none
  deriving DecidableEq, Repr

/-- The parameters a machine is built with (00_scope.md R8: "A model takes each as an argument"). They are fixed for the
machine: no operation changes them. DESIGN CHOICE, safe, log entry 1: State carries them. -/
structure Config where
  /-- STACK_DEPTH: how many entries the call stack holds at most (10_state.md R28, D3). -/
  stackDepth : Nat
  /-- ALU_MODE (D1). -/
  aluMode : AluMode
  /-- COLLISION_MODE (D2). -/
  collisionMode : CollisionMode
  /-- FONT: the 80 bytes the font preload writes at 0x000 (70_reset_and_hazards.md R241, R242, D13). -/
  font : Vector Byte 80
  deriving DecidableEq, Repr

/-- 00_scope.md R8: STACK_DEPTH is a positive integer. -/
abbrev Config.wf (c : Config) : Prop := 0 < c.stackDepth

end Sys2Proof
end

