-- ==== Sys2Proof/Machine/Params.lean ====
section
/-! DEFINITION. The default values of the configuration parameters (spec 00_scope.md R8). -/

namespace Sys2Proof.Machine

/-- The default FONT: the table of 70_reset_and_hazards.md R242, glyph g in row g. PRESUMED, unsafe, log entry 5: the spec
marks these bytes "from general knowledge, not in source". -/
def defaultFont : Vector Byte 80 :=
  #v[0xF0, 0x90, 0x90, 0x90, 0xF0,
     0x20, 0x60, 0x20, 0x20, 0x70,
     0xF0, 0x10, 0xF0, 0x80, 0xF0,
     0xF0, 0x10, 0xF0, 0x10, 0xF0,
     0x90, 0x90, 0xF0, 0x10, 0x10,
     0xF0, 0x80, 0xF0, 0x10, 0xF0,
     0xF0, 0x80, 0xF0, 0x90, 0xF0,
     0xF0, 0x10, 0x20, 0x40, 0x40,
     0xF0, 0x90, 0xF0, 0x90, 0xF0,
     0xF0, 0x90, 0xF0, 0x10, 0xF0,
     0xF0, 0x90, 0xF0, 0x90, 0x90,
     0xE0, 0x90, 0xE0, 0x90, 0xE0,
     0xF0, 0x80, 0x80, 0x80, 0xF0,
     0xE0, 0x90, 0x90, 0x90, 0xE0,
     0xF0, 0x80, 0xF0, 0x80, 0xF0,
     0xF0, 0x80, 0xF0, 0x80, 0x80]

/-- 00_scope.md R8's defaults: STACK_DEPTH 16 (D3), ALU_MODE standard (D1), COLLISION_MODE standard (D2), the default
FONT (D13). Log entries 2 to 5. -/
def defaultConfig : Config :=
  { stackDepth := 16, aluMode := .standard, collisionMode := .standard, font := defaultFont }

end Sys2Proof.Machine
end

