-- ==== Sys2Proof/Machine/State.lean ====
section
/-! DEFINITION. The machine's state as plain data (spec 10_state.md: "the tuple (V, I, PC, Stack, DT, M, Disp, Status)"),
its value after reset (R37), and the reasons an operation can stop. -/

namespace Sys2Proof.Machine

/-- Memory as the list of the bytes that differ from the reset image, addresses strictly rising (Memory.wf, Machine/Memory.lean).
What an unlisted address reads as is `background`. -/
abbrev Memory := List Host.Cell

/-- The display buffer: 32 rows of 64 one-bit pixels, row-major (10_state.md R31). Row y, column x is `d[y][x]`. -/
abbrev Display := Vector (Vector Bool 64) 32

/-- The five fatal errors of 60_exceptions.md R210. -/
inductive ErrorKind where
  /-- Raised by a step whose word matches no row of the opcode table (30_encoding.md R91). -/
  | unimplementedOpcode
  /-- Raised by 2NNN when the stack is full (40_flow.md R113). -/
  | stackOverflow
  /-- Raised by 00EE when the stack is empty (40_flow.md R111). -/
  | stackUnderflow
  /-- Raised by the fetch and by DXYN for an address at or beyond 4096 (20_memory.md R55, R56). -/
  | memoryOutOfBounds
  /-- Raised by LoadRom for an image that does not fit (70_reset_and_hazards.md R245). -/
  | romTooLarge
  deriving DecidableEq, Repr

/-- The error record of 10_state.md R32. Its component `code` is a function of `kind` (60_exceptions.md R210) and is
computed from it, `ErrorKind.code`. -/
structure ErrorRecord where
  kind : ErrorKind
  /-- PC before the fetch of the failing instruction; none for RomTooLarge. -/
  pc : Option Word
  /-- The raw instruction word; none when the fetch itself failed and for RomTooLarge. -/
  word : Option Word
  /-- The lowest invalid address for MemoryOutOfBounds, else none. Addresses are unbounded naturals (20_memory.md R51). -/
  addr : Option Nat
  deriving DecidableEq, Repr

/-- The run status of 10_state.md R32. -/
inductive Status where
  /-- The next Step executes an instruction. -/
  | running
  /-- A fatal error occurred. -/
  | halted (err : ErrorRecord)
  /-- A Stop request was taken (60_exceptions.md R222). -/
  | stopped
  deriving DecidableEq, Repr

/-- The block's state (10_state.md R33: "the block's only state"), and the parameters the block was built with. -/
structure State where
  /-- V0..VF (10_state.md R20). -/
  v : Vector Byte 16
  /-- The index register I (10_state.md R24). -/
  i : Word
  /-- The program counter; between steps the address of the next instruction (10_state.md R25). -/
  pc : Word
  /-- The call stack, its top first (10_state.md R28); its length is the stack depth. -/
  stack : List Word
  /-- The delay timer DT (10_state.md R30). -/
  dt : Byte
  /-- Memory M (20_memory.md R50). -/
  mem : Memory
  /-- The display buffer Disp (10_state.md R31). -/
  disp : Display
  /-- The run status with its error record (10_state.md R32). -/
  status : Status
  /-- The model's own field: the parameters of 00_scope.md R8, which no operation changes (log entry 1). -/
  params : Config
  deriving DecidableEq, Repr

/-- Reasons a step can stop with a fault: there is none. Every error the spec names has the effect R214 gives it (a next
state whose status is Halted), so no behaviour is left that would stop the machine outside its own state. -/
inductive Fault where
  deriving DecidableEq, Repr

/-- Reasons for which an operation is given no meaning. -/
inductive Refusal where
  /-- Raised by an arm of exec whose instruction has no meaning yet; safe. No arm raises it in this model. -/
  | notModelled (mnemonic : String)
  /-- Raised by the boundary operation LoadRom outside its window (70_reset_and_hazards.md R246: "a model refuses it");
  safe. No step and no instruction raises it. -/
  | loadRomOutsideWindow
  deriving DecidableEq, Repr

/-- Every field at its reset value (10_state.md R37, 70_reset_and_hazards.md R240), for the parameters `c`. No byte is listed:
the reset image, FONT and zeros, is what unlisted addresses read as. -/
def State.resetWith (c : Config) : State :=
  { v := Vector.replicate 16 0x00#8, i := 0x0000#16, pc := 0x0200#16, stack := [], dt := 0x00#8, mem := [],
    disp := Vector.replicate 32 (Vector.replicate 64 false), status := .running, params := c }

/-- The machine right after reset, with the default parameters of 00_scope.md R8. -/
def State.reset : State := State.resetWith defaultConfig

end Sys2Proof.Machine
end

