-- ==== Sys2Proof/Machine/Memory.lean ====
section
/-! DEFINITION. Memory as a list of cells in one canonical form: what an unlisted address reads as, reading and writing a
byte, the form itself (spec 20_memory.md R50 to R53). `bg` is what unlisted addresses read as. -/

namespace Sys2Proof.Machine

/-- What an address with no cell reads as: the memory image Reset leaves (10_state.md R37): FONT at 0x000..0x04F
(70_reset_and_hazards.md R241) and 0x00 everywhere else. -/
def background (c : Config) (a : Nat) : Byte := if h : a < 80 then c.font[a] else 0x00#8

/-- The byte a cell list holds at an address, if it lists the address. -/
def Memory.lookup : Memory → Nat → Option Byte
  | [], _ => none
  | (b, w) :: rest, a => if b = a then some w else Memory.lookup rest a

/-- The byte read at an address. -/
def Memory.read (bg : Nat → Byte) (m : Memory) (a : Nat) : Byte := (Memory.lookup m a).getD (bg a)

/-- The cells with the byte `v` listed at `a`, in rising order of address. -/
def Memory.insert : Memory → Nat → Byte → Memory
  | [], a, v => [(a, v)]
  | (b, w) :: rest, a, v =>
    if a < b then (a, v) :: (b, w) :: rest
    else if a = b then (a, v) :: rest
    else (b, w) :: Memory.insert rest a v

/-- The cells without the address `a`. -/
def Memory.remove : Memory → Nat → Memory
  | [], _ => []
  | (b, w) :: rest, a => if b = a then Memory.remove rest a else (b, w) :: Memory.remove rest a

/-- The cells after writing `v` at `a`: a byte equal to what an unlisted address reads as is not listed. -/
def Memory.write (bg : Nat → Byte) (m : Memory) (a : Nat) (v : Byte) : Memory :=
  if v = bg a then Memory.remove m a else Memory.insert m a v

/-- The canonical form: addresses strictly rising, each inside the address space of 20_memory.md R50, no cell equal to what
an unlisted address reads as. -/
abbrev Memory.wf (bg : Nat → Byte) (m : Memory) : Prop :=
  m.Pairwise (fun c d => c.1 < d.1) ∧ ∀ c ∈ m, c.1 < 4096 ∧ c.2 ≠ bg c.1

/-- `M[a]` (00_scope.md R10): the byte at an address below 4096. -/
def State.peek (s : State) (a : Nat) : Byte := Memory.read (background s.params) s.mem a

/-- `MemWrite(a, 1, v)` (20_memory.md R53), for a < 4096; an address outside the space is left alone. -/
def State.memWrite (s : State) (a : Nat) (v : Byte) : State :=
  if a < 4096 then { s with mem := Memory.write (background s.params) s.mem a v } else s

end Sys2Proof.Machine
end

