-- ==== Sys2Proof/Machine/Ops.lean ====
section
/-! DEFINITION. The shared operations over registers, memory, PC and stack, the fetch, and raising a fatal error
(spec 20_memory.md R52 to R56, 30_encoding.md R85, 40_flow.md R111, R113, 60_exceptions.md R214). -/

namespace Sys2Proof.Machine

/-- A step's outcome. -/
abbrev Result := Host.Outcome State Fault Refusal

/-- What a rule of a step hands to `raise`: the error's kind and, for MemoryOutOfBounds, the lowest invalid address. -/
structure StepError where
  kind : ErrorKind
  addr : Option Nat
  deriving DecidableEq, Repr

/-- The numeric codes of 60_exceptions.md R210 (the spec's own, D9). -/
def ErrorKind.code : ErrorKind → Nat
  | .unimplementedOpcode => 1
  | .stackOverflow => 2
  | .stackUnderflow => 3
  | .memoryOutOfBounds => 4
  | .romTooLarge => 5

/-! ## Registers, PC, stack and display -/

/-- `V[x]`: no register is hardwired and none aliases another (10_state.md R20). -/
def State.reg (s : State) (x : RegIdx) : Byte := s.v[x.toNat]'x.isLt

/-- `V[x] <- b`. -/
def State.setReg (s : State) (x : RegIdx) (b : Byte) : State := { s with v := s.v.set x.toNat b x.isLt }

/-- `I <- w`. -/
def State.setI (s : State) (w : Word) : State := { s with i := w }

/-- `PC <- w`. -/
def State.setPc (s : State) (w : Word) : State := { s with pc := w }

/-- The stack replaced. -/
def State.setStack (s : State) (l : List Word) : State := { s with stack := l }

/-- The display replaced. -/
def State.setDisp (s : State) (d : Display) : State := { s with disp := d }

/-- The fetch's advance, `PC <- A + 2` (30_encoding.md R85). No 16-bit wrap is reachable (10_state.md R27; log entry 9). -/
def State.advance (s : State) : State := { s with pc := s.pc + 2#16 }

/-- A skip: "adds 2 to PC and nothing else" (40_flow.md R118), to the already advanced PC (C10). -/
def State.skipIf (s : State) (c : Bool) : State := if c then { s with pc := s.pc + 2#16 } else s

/-! ## Memory reads -/

/-- `MemRead(a, 1)` (20_memory.md R52): the only read primitive of the execute path. -/
def memRead1 (s : State) (a : Nat) : Except StepError Byte :=
  if 4096 ≤ a then .error ⟨.memoryOutOfBounds, some a⟩ else .ok (s.peek a)

/-- `MemRead(a, 2)`, big-endian (20_memory.md R52, R54). -/
def memRead2 (s : State) (a : Nat) : Except StepError Word :=
  match memRead1 s a, memRead1 s (a + 1) with
  | .ok hi, .ok lo => .ok (wordOfBytes hi lo)
  | .error e, _ => .error e
  | .ok _, .error e => .error e

/-- `Fetch` (20_memory.md R55): one check covers both bytes; the address is the lowest invalid one (D6). -/
def fetch (s : State) : Except StepError Word :=
  if 4096 ≤ s.pc.toNat + 1 then .error ⟨.memoryOutOfBounds, some (max s.pc.toNat 4096)⟩ else memRead2 s s.pc.toNat

/-- `SpriteRows(I, N)` (20_memory.md R56): every row address is checked before anything changes; I is not masked (D7). -/
def spriteRows (s : State) (n : Nibble) : Except StepError (List Byte) :=
  if 0 < n.toNat ∧ 4096 ≤ s.i.toNat + n.toNat - 1 then .error ⟨.memoryOutOfBounds, some (max s.i.toNat 4096)⟩
  else .ok ((List.range n.toNat).map fun r => s.peek (s.i.toNat + r))

/-! ## The call stack -/

/-- `if depth = STACK_DEPTH: raise StackOverflow; push(PC)` (40_flow.md R113). -/
def pushPc (s : State) : Except StepError State :=
  if s.stack.length = s.params.stackDepth then .error ⟨.stackOverflow, none⟩
  else .ok (s.setStack (s.pc :: s.stack))

/-- `if depth = 0: raise StackUnderflow; PC <- pop()` (40_flow.md R111). -/
def popPc (s : State) : Except StepError State :=
  match s.stack with
  | [] => .error ⟨.stackUnderflow, none⟩
  | top :: rest => .ok ((s.setStack rest).setPc top)

/-! ## Taking a fatal error, and running one instruction -/

/-- `raise E(word, addr)` (60_exceptions.md R214): the state `s0` before the fetch, with the Halted status and its record.
There is no return from it (R218). -/
def raise (s0 : State) (word : Option Word) (e : StepError) : State :=
  { s0 with status := .halted { kind := e.kind, pc := some s0.pc, word := word, addr := e.addr } }

/-- The part of a Step after the dispatch (30_encoding.md R85), from the state `s0` before the fetch: PC is advanced, the
instruction's rule `body` runs, and an error it raises discards every write (60_exceptions.md R214). The word recorded is
the instruction's own, which is the word fetched (log entry 8). -/
def execute (i : Instr) (s0 : State) (body : State → Except StepError State) : Result :=
  match body s0.advance with
  | .ok s => .next s
  | .error e => .next (raise s0 (some (encode i)) e)

/-- Fetch, decode and dispatch (30_encoding.md R85): the instruction at PC, or the error with the word it is recorded with.
The fetch check comes before the dispatch (60_exceptions.md R216). -/
def fetchInstr (s : State) : Except (Option Word × StepError) Instr :=
  match fetch s with
  | .error e => .error (none, e)
  | .ok w =>
    match decodeWord w with
    | none => .error (some w, ⟨.unimplementedOpcode, none⟩)
    | some i => .ok i

end Sys2Proof.Machine
end

