-- ==== Sys2Proof/Machine/Operands.lean ====
section
/-! DEFINITION. Operand forms: the ALU's two operands and the zero-extended address (spec 41_alu.md R143, 30_encoding.md R83).
"No operand form other than a direct register index or an immediate exists" (30_encoding.md R84). -/

namespace Sys2Proof.Machine

/-- `AluA(X, Y)` (41_alu.md R143): the first ALU operand of 8XY1 to 8XY4, by ALU_MODE (D1). -/
def aluA (s : State) (x y : RegIdx) : Byte :=
  match s.params.aluMode with
  | .standard => s.reg x
  | .sourceFaithful => s.reg y

/-- `AluB(X, Y)` (41_alu.md R143). -/
def aluB (s : State) (y : RegIdx) : Byte := s.reg y

/-- `zext_16(NNN)` (30_encoding.md R83). -/
def zext16 (nnn : Addr12) : Word := nnn.setWidth 16

/-- The unreduced sum of an addition (41_alu.md R151: "0..510, unbounded natural"). -/
def aluSum (a b : Byte) : Nat := a.toNat + b.toNat

/-- The result of ADD: the sum mod 256 (41_alu.md R144). -/
def aluAdd (a b : Byte) : Byte := BitVec.ofNat 8 (aluSum a b)

/-- The result of OR (41_alu.md R144). -/
def aluOr (a b : Byte) : Byte := a ||| b

/-- The result of AND (41_alu.md R144). -/
def aluAnd (a b : Byte) : Byte := a &&& b

/-- The result of XOR (41_alu.md R144). -/
def aluXor (a b : Byte) : Byte := a ^^^ b

end Sys2Proof.Machine
end

