-- ==== Sys2Proof/Machine/Flags.lean ====
section
/-! DEFINITION. The two flags, both written to VF (spec 10_state.md R22, R23): the carry of 8XY4 and the collision of DXYN.
There is no other flag and no condition-code register. -/

namespace Sys2Proof.Machine

/-- VF is V[15] (10_state.md R22). -/
def vf : RegIdx := 0xF#4

/-- A flag's byte: 1 or 0. -/
def flagByte (b : Bool) : Byte := if b then 1#8 else 0#8

/-- The carry of ADD: 1 if the unreduced sum is at least 256 (41_alu.md R144). -/
def carryOut (a b : Byte) : Bool := decide (256 ≤ aluSum a b)

/-- `VF <- carry` (41_alu.md R151), the last write of 8XY4 (D16). -/
def writeCarry (s : State) (c : Bool) : State := s.setReg vf (flagByte c)

/-- `if COLLISION_MODE = standard: VF <- collided` (43_display.md R183, R187), the last write of DXYN (D31). -/
def writeCollision (s : State) (collided : Bool) : State :=
  match s.params.collisionMode with
  | .standard => s.setReg vf (flagByte collided)
  | .none => s

end Sys2Proof.Machine
end

