-- ==== Sys2Proof/Machine/Alu.lean ====
section
/-! DEFINITION. Register loads and ALU (spec 41_alu.md): 6XNN, 7XNN, 8XY0 to 8XY4. Every operand is read before any result
is written (R140). -/

namespace Sys2Proof.Machine

/-- 6XNN (41_alu.md R141). -/
def execLdImm (x : RegIdx) (nn : Byte) (s : State) : Result :=
  execute (.ldImm x nn) s fun s1 => .ok (s1.setReg x nn)

/-- 7XNN (41_alu.md R142): no carry is written; with X = F, VF receives the sum (C4). -/
def execAddImm (x : RegIdx) (nn : Byte) (s : State) : Result :=
  execute (.addImm x nn) s fun s1 => .ok (s1.setReg x (aluAdd (s1.reg x) nn))

/-- 8XY0 (41_alu.md R146), the same in both ALU modes. -/
def execLdReg (x y : RegIdx) (s : State) : Result :=
  execute (.ldReg x y) s fun s1 => .ok (s1.setReg x (s1.reg y))

/-- 8XY1 (41_alu.md R147). -/
def execOrReg (x y : RegIdx) (s : State) : Result :=
  execute (.orReg x y) s fun s1 => .ok (s1.setReg x (aluOr (aluA s1 x y) (aluB s1 y)))

/-- 8XY2 (41_alu.md R148). -/
def execAndReg (x y : RegIdx) (s : State) : Result :=
  execute (.andReg x y) s fun s1 => .ok (s1.setReg x (aluAnd (aluA s1 x y) (aluB s1 y)))

/-- 8XY3 (41_alu.md R149). -/
def execXorReg (x y : RegIdx) (s : State) : Result :=
  execute (.xorReg x y) s fun s1 => .ok (s1.setReg x (aluXor (aluA s1 x y) (aluB s1 y)))

/-- 8XY4 (41_alu.md R151): V[X] gets the sum mod 256, then VF the carry, so that with X = F the carry stays (D16). -/
def execAddReg (x y : RegIdx) (s : State) : Result :=
  execute (.addReg x y) s fun s1 =>
    .ok (writeCarry (s1.setReg x (aluAdd (aluA s1 x y) (aluB s1 y))) (carryOut (aluA s1 x y) (aluB s1 y)))

end Sys2Proof.Machine
end

