-- ==== Sys2Proof/Machine/Screen.lean ====
section
/-! DEFINITION. The display unit: pixels, and XOR-drawing a sprite with clipping and collision (spec 43_display.md R181 to R187). -/

namespace Sys2Proof.Machine

/-- `Disp[y][x]` (10_state.md R31); a coordinate off the grid reads as off. -/
def Display.pixel (d : Display) (x y : Nat) : Bool :=
  if h : x < 64 ∧ y < 32 then (d[y]'h.2)[x]'h.1 else false

/-- `Disp[y][x] <- Disp[y][x] XOR 1`, for a pixel on the grid. -/
def Display.toggle (d : Display) (x y : Nat) : Display :=
  if h : x < 64 ∧ y < 32 then d.set y ((d[y]'h.2).set x (!(d[y]'h.2)[x]'h.1) h.1) h.2 else d

/-- All pixels 0 (43_display.md R180). -/
def Display.clear : Display := Vector.replicate 32 (Vector.replicate 64 false)

/-- Column c of a sprite row is bit 7 - c: "most-significant bit is the leftmost pixel" (43_display.md R181). -/
def spriteBit (row : Byte) (c : Nat) : Bool := row.getLsbD (7 - c)

/-- One sprite bit at the target (px, py) (43_display.md R183): clipped off the grid (R185), else a 1 toggles the pixel
and notes a collision if the pixel was on. -/
def drawBit (px py : Nat) (bit : Bool) (acc : Display × Bool) : Display × Bool :=
  if 64 ≤ px ∨ 32 ≤ py then acc
  else if bit then (Display.toggle acc.1 px py, acc.2 || Display.pixel acc.1 px py)
  else acc

/-- The eight bits of one row, leftmost first (43_display.md R183's inner loop). -/
def drawRow (x0 py : Nat) (row : Byte) (acc : Display × Bool) : Display × Bool :=
  (List.range 8).foldl (fun acc c => drawBit (x0 + c) py (spriteBit row c) acc) acc

/-- The rows in order, the first at row `py` (43_display.md R183's outer loop). Coordinates are unbounded (R182). -/
def drawRows (x0 : Nat) : Nat → List Byte → Display × Bool → Display × Bool
  | _, [], acc => acc
  | py, row :: rest, acc => drawRows x0 (py + 1) rest (drawRow x0 py row acc)

/-- The display after the draw, and whether a pixel went from on to off (43_display.md R183). -/
def drawSprite (x0 y0 : Nat) (rows : List Byte) (d : Display) : Display × Bool := drawRows x0 y0 rows (d, false)

end Sys2Proof.Machine
end

