-- ==== Sys2Proof/Machine/Draw.lean ====
section
/-! DEFINITION. The display instructions (spec 43_display.md): 00E0, DXYN. -/

namespace Sys2Proof.Machine

/-- 00E0 (43_display.md R180). -/
def execCls (s : State) : Result := execute .cls s fun s1 => .ok (s1.setDisp Display.clear)

/-- DXYN (43_display.md R183): the coordinates are read first (R188), then the rows, which may raise, then the pixels
change, and the collision flag is the last write (R187). N = 0 draws nothing (R186). -/
def execDrw (x y : RegIdx) (n : Nibble) (s : State) : Result :=
  execute (.drw x y n) s fun s1 =>
    (spriteRows s1 n).map fun rows =>
      writeCollision (s1.setDisp (drawSprite (s1.reg x).toNat (s1.reg y).toNat rows s1.disp).1)
        (drawSprite (s1.reg x).toNat (s1.reg y).toNat rows s1.disp).2

end Sys2Proof.Machine
end

