-- ==== Sys2Proof/Machine/Flow.lean ====
section
/-! DEFINITION. Control transfer and skips (spec 40_flow.md): 00EE, 1NNN, 2NNN, 3XNN, 4XNN, 5XY0, 9XY0. In each body PC is
already A + 2 (R110). -/

namespace Sys2Proof.Machine

/-- 00EE (40_flow.md R111). The popped value is used as it is. -/
def execRet (s : State) : Result := execute .ret s popPc

/-- 1NNN (40_flow.md R112). -/
def execJp (nnn : Addr12) (s : State) : Result := execute (.jp nnn) s fun s1 => .ok (s1.setPc (zext16 nnn))

/-- 2NNN (40_flow.md R113): the PC pushed is the advanced A + 2. -/
def execCall (nnn : Addr12) (s : State) : Result :=
  execute (.call nnn) s fun s1 => (pushPc s1).map fun s2 => s2.setPc (zext16 nnn)

/-- 3XNN (40_flow.md R114). -/
def execSeImm (x : RegIdx) (nn : Byte) (s : State) : Result :=
  execute (.seImm x nn) s fun s1 => .ok (s1.skipIf (s1.reg x == nn))

/-- 4XNN (40_flow.md R115). -/
def execSneImm (x : RegIdx) (nn : Byte) (s : State) : Result :=
  execute (.sneImm x nn) s fun s1 => .ok (s1.skipIf (s1.reg x != nn))

/-- 5XY0 (40_flow.md R116). -/
def execSeReg (x y : RegIdx) (s : State) : Result :=
  execute (.seReg x y) s fun s1 => .ok (s1.skipIf (s1.reg x == s1.reg y))

/-- 9XY0 (40_flow.md R117). -/
def execSneReg (x y : RegIdx) (s : State) : Result :=
  execute (.sneReg x y) s fun s1 => .ok (s1.skipIf (s1.reg x != s1.reg y))

end Sys2Proof.Machine
end

