-- ==== Sys2Proof/Machine/Index.lean ====
section
/-! DEFINITION. The index register (spec 42_index.md): ANNN. -/

namespace Sys2Proof.Machine

/-- ANNN (42_index.md R170): I is not checked when it is written. -/
def execLdI (nnn : Addr12) (s : State) : Result := execute (.ldI nnn) s fun s1 => .ok (s1.setI (zext16 nnn))

end Sys2Proof.Machine
end

