-- ==== Sys2Proof/Machine/Step.lean ====
section
/-! DEFINITION. One step (spec 30_encoding.md R85, R86), and placing a word where the step fetches. -/

namespace Sys2Proof.Machine

/-- `Step` (30_encoding.md R85): one instruction or one fatal error; nothing when Halted or Stopped (R86). -/
def step (s : State) : Host.Outcome State Fault Refusal :=
  match s.status with
  | .running =>
    match fetchInstr s with
    | .ok i => exec i s
    | .error (word, e) => .next (raise s word e)
  | .halted _ => .next s
  | .stopped => .next s

/-- `s` with the instruction word whose bits spec/opcode_table.json numbers as `w` placed where `step` fetches next, high byte
at PC (20_memory.md R54, R55), and Running, without which a Step fetches nothing (R86). Where no word can be fetched
(PC + 1 is no address) the bytes beyond the space are not placed (log entry 32). -/
def State.withFetchWord (s : State) (nbits w : Nat) : State :=
  { (s.memWrite s.pc.toNat (hiByte (tableWord nbits w))).memWrite (s.pc.toNat + 1) (loByte (tableWord nbits w)) with
    status := .running }

end Sys2Proof.Machine
end

