-- ==== Sys2Proof/Machine/Listing.lean ====
section
/-! DEFINITION. Listings (spec 30_encoding.md R94, R95): the notation of an instruction as text, and assembling lines into
words and bytes. No behaviour of the machine depends on it (D14). -/

namespace Sys2Proof.Machine

/-- The instruction a well-formed statement line stands for (30_encoding.md R94); none for DW and for no form of R94. -/
def instrOfLine : Line → Option Instr
  | .stmt .CLS [] => some .cls
  | .stmt .RET [] => some .ret
  | .stmt .JP [.imm a] => some (.jp (BitVec.ofNat 12 a))
  | .stmt .CALL [.imm a] => some (.call (BitVec.ofNat 12 a))
  | .stmt .SE [.v x, .imm k] => some (.seImm (BitVec.ofNat 4 x) (BitVec.ofNat 8 k))
  | .stmt .SNE [.v x, .imm k] => some (.sneImm (BitVec.ofNat 4 x) (BitVec.ofNat 8 k))
  | .stmt .SE [.v x, .v y] => some (.seReg (BitVec.ofNat 4 x) (BitVec.ofNat 4 y))
  | .stmt .LD [.v x, .imm k] => some (.ldImm (BitVec.ofNat 4 x) (BitVec.ofNat 8 k))
  | .stmt .ADD [.v x, .imm k] => some (.addImm (BitVec.ofNat 4 x) (BitVec.ofNat 8 k))
  | .stmt .LD [.v x, .v y] => some (.ldReg (BitVec.ofNat 4 x) (BitVec.ofNat 4 y))
  | .stmt .OR [.v x, .v y] => some (.orReg (BitVec.ofNat 4 x) (BitVec.ofNat 4 y))
  | .stmt .AND [.v x, .v y] => some (.andReg (BitVec.ofNat 4 x) (BitVec.ofNat 4 y))
  | .stmt .XOR [.v x, .v y] => some (.xorReg (BitVec.ofNat 4 x) (BitVec.ofNat 4 y))
  | .stmt .ADD [.v x, .v y] => some (.addReg (BitVec.ofNat 4 x) (BitVec.ofNat 4 y))
  | .stmt .SNE [.v x, .v y] => some (.sneReg (BitVec.ofNat 4 x) (BitVec.ofNat 4 y))
  | .stmt .LD [.i, .imm a] => some (.ldI (BitVec.ofNat 12 a))
  | .stmt .DRW [.v x, .v y, .imm n] => some (.drw (BitVec.ofNat 4 x) (BitVec.ofNat 4 y) (BitVec.ofNat 4 n))
  | .stmt _ _ => none
  | .dw _ => none

/-- The word of a well-formed line (30_encoding.md R95): an instruction's encoding, or the raw word of DW. -/
def wordOfLine : Line → Option Word
  | .dw w => some (BitVec.ofNat 16 w)
  | .stmt m ops => (instrOfLine (.stmt m ops)).map encode

/-- A line's word, or what is wrong with the line. -/
def assembleLine (l : Line) : Except FormError Word :=
  match l.check with
  | some e => .error e
  | none =>
    match wordOfLine l with
    | some w => .ok w
    | none => .error .noSuchForm

/-- The bytes of a listing, each word big-endian at consecutive addresses (30_encoding.md R95). -/
def assemble : List Line → Except FormError (List Byte)
  | [] => .ok []
  | l :: rest =>
    match assembleLine l, assemble rest with
    | .ok w, .ok bytes => .ok (bytesOfWord w ++ bytes)
    | .error e, _ => .error e
    | .ok _, .error e => .error e

/-- An upper-case hexadecimal digit. -/
def hexDigit (k : Nat) : Char := (['0', '1', '2', '3', '4', '5', '6', '7', '8', '9', 'A', 'B', 'C', 'D', 'E', 'F'])[k]?.getD '?'

/-- `digits` hexadecimal digits of a number, most significant first. -/
def hexDigits : Nat → Nat → List Char
  | 0, _ => []
  | digits + 1, k => hexDigits digits (k / 16) ++ [hexDigit (k % 16)]

/-- A mnemonic's letters. -/
def mnemText : Mnem → List Char
  | .CLS => ['C', 'L', 'S']
  | .RET => ['R', 'E', 'T']
  | .JP => ['J', 'P']
  | .CALL => ['C', 'A', 'L', 'L']
  | .SE => ['S', 'E']
  | .SNE => ['S', 'N', 'E']
  | .LD => ['L', 'D']
  | .ADD => ['A', 'D', 'D']
  | .OR => ['O', 'R']
  | .AND => ['A', 'N', 'D']
  | .XOR => ['X', 'O', 'R']
  | .DRW => ['D', 'R', 'W']

/-- `0x` and `digits` hexadecimal digits (30_encoding.md R94). -/
def hexText (digits k : Nat) : List Char := ['0', 'x'] ++ hexDigits digits k

/-- A register's name, `V0`..`VF` (30_encoding.md R94). -/
def regText (x : RegIdx) : List Char := ['V', hexDigit x.toNat]

/-- Operand texts separated by commas (30_encoding.md R94). -/
def operandsText : List (List Char) → List Char
  | [] => []
  | [o] => o
  | o :: rest => o ++ [',', ' '] ++ operandsText rest

/-- A mnemonic and its operands as one line of text. -/
def lineText (m : Mnem) (ops : List (List Char)) : List Char :=
  match ops with
  | [] => mnemText m
  | _ => mnemText m ++ [' '] ++ operandsText ops

/-- The text of an instruction: the row of 30_encoding.md R94 with its letters filled in. -/
def instrText : Instr → List Char
  | .cls => lineText .CLS []
  | .ret => lineText .RET []
  | .jp a => lineText .JP [hexText 3 a.toNat]
  | .call a => lineText .CALL [hexText 3 a.toNat]
  | .seImm x k => lineText .SE [regText x, hexText 2 k.toNat]
  | .sneImm x k => lineText .SNE [regText x, hexText 2 k.toNat]
  | .seReg x y => lineText .SE [regText x, regText y]
  | .ldImm x k => lineText .LD [regText x, hexText 2 k.toNat]
  | .addImm x k => lineText .ADD [regText x, hexText 2 k.toNat]
  | .ldReg x y => lineText .LD [regText x, regText y]
  | .orReg x y => lineText .OR [regText x, regText y]
  | .andReg x y => lineText .AND [regText x, regText y]
  | .xorReg x y => lineText .XOR [regText x, regText y]
  | .addReg x y => lineText .ADD [regText x, regText y]
  | .sneReg x y => lineText .SNE [regText x, regText y]
  | .ldI a => lineText .LD [['I'], hexText 3 a.toNat]
  | .drw x y n => lineText .DRW [regText x, regText y, hexText 1 n.toNat]

end Sys2Proof.Machine
end

