-- ==== Sys2Proof/Machine/Boundary.lean ====
section
/-! DEFINITION. The block's boundary (spec 00_scope.md R13): Reset, LoadRom, Stop, Status, DisplaySnapshot and Inspect beside
Step. "The block has exactly these operations on its boundary, and no other way to change or read its state." -/

namespace Sys2Proof.Machine

/-- `Reset` (70_reset_and_hazards.md R240), accepted in every status: every piece of state at its reset value, the font
preloaded. The parameters the block was built with stay. -/
def hostReset (s : State) : State := State.resetWith s.params

/-- `M[base + k] <- bytes[k]` for each k, in order (70_reset_and_hazards.md R245). -/
def State.writeBytes (s : State) : Nat → List Byte → State
  | _, [] => s
  | base, b :: rest => State.writeBytes (s.memWrite base b) (base + 1) rest

/-- The state after LoadRom raises RomTooLarge (60_exceptions.md R217): no byte is written. -/
def raiseRomTooLarge (s : State) : State :=
  { s with status := .halted { kind := .romTooLarge, pc := none, word := none, addr := none } }

/-- `LoadRom(bytes)` in its window (70_reset_and_hazards.md R245): all or nothing; any length that fits (D29). -/
def loadRom (bytes : List Byte) (s : State) : State :=
  if 4096 < 0x200 + bytes.length then raiseRomTooLarge s else s.writeBytes 0x200 bytes

/-- `Stop` (60_exceptions.md R222). -/
def hostStop (s : State) : State :=
  match s.status with
  | .running => { s with status := .stopped }
  | .halted _ => s
  | .stopped => s

/-- What the Status operation reports (10_state.md R32): the status with its error record, and the record's code, 0 unless
Halted (60_exceptions.md R210). -/
structure StatusReport where
  status : Status
  code : Nat
  deriving DecidableEq, Repr

/-- The code of a status (60_exceptions.md R210): 0 when it is not Halted. -/
def statusCode : Status → Nat
  | .running => 0
  | .halted err => err.kind.code
  | .stopped => 0

/-- `Status` (10_state.md R32). -/
def statusReport (s : State) : StatusReport := { status := s.status, code := statusCode s.status }

/-- `DisplaySnapshot` (43_display.md R195): all 2048 pixels, pixel y * 64 + x. -/
def displaySnapshot (s : State) : List Bool := (s.disp.toList.map Vector.toList).flatten

/-- What Inspect shows (10_state.md R34). The stack is given oldest first, as the spec writes it. -/
structure Inspection where
  v : List Byte
  i : Word
  pc : Word
  stack : List Word
  depth : Nat
  dt : Byte
  mem : List Byte
  status : StatusReport
  deriving DecidableEq, Repr

/-- `Inspect` (10_state.md R34): reads and changes nothing. -/
def inspect (s : State) : Inspection :=
  { v := s.v.toList, i := s.i, pc := s.pc, stack := s.stack.reverse, depth := s.stack.length, dt := s.dt,
    mem := (List.range 4096).map s.peek, status := statusReport s }

/-- The block with what its boundary must remember of the host: whether LoadRom is still permitted, that is, after a Reset
and before the first Step and the first LoadRom (70_reset_and_hazards.md R246). It is no state of the block's
(10_state.md R33); log entry 17. -/
structure Boundary where
  block : State
  loadPermitted : Bool
  deriving DecidableEq, Repr

/-- The operations that can change the block (00_scope.md R13). -/
inductive HostOp where
  | reset
  | loadRom (bytes : List Byte)
  | step
  | stop
  deriving DecidableEq, Repr

/-- LoadRom as the boundary takes it: nothing when Halted or Stopped (60_exceptions.md R218, D11; log entry 18), refused
outside its window (70_reset_and_hazards.md R246). -/
def boundaryLoad (bytes : List Byte) (b : Boundary) : Host.Outcome Boundary Fault Refusal :=
  match b.block.status with
  | .halted _ => .next b
  | .stopped => .next b
  | .running =>
    if b.loadPermitted then .next { block := loadRom bytes b.block, loadPermitted := false }
    else .refused .loadRomOutsideWindow

/-- A Step as the boundary takes it: it closes the window of LoadRom. -/
def boundaryStep (b : Boundary) : Host.Outcome Boundary Fault Refusal :=
  match step b.block with
  | .next s => .next { block := s, loadPermitted := false }
  | .fault r => .fault r
  | .refused r => .refused r

/-- One boundary operation, taken between steps (00_scope.md R14). -/
def boundary (op : HostOp) (b : Boundary) : Host.Outcome Boundary Fault Refusal :=
  match op with
  | .reset => .next { block := hostReset b.block, loadPermitted := true }
  | .loadRom bytes => boundaryLoad bytes b
  | .step => boundaryStep b
  | .stop => .next { b with block := hostStop b.block }

/-- A sequence of boundary operations, stopping at the first that is refused. -/
def boundaryRun : List HostOp → Boundary → Host.Outcome Boundary Fault Refusal
  | [], b => .next b
  | op :: rest, b =>
    match boundary op b with
    | .next b' => boundaryRun rest b'
    | .fault r => .fault r
    | .refused r => .refused r

end Sys2Proof.Machine
end

