-- ==== Sys2Proof/Safety.lean ====
section
/-! DEFINITION. The terms claims are stated in: the invariant of every reachable state, what an operation may change, the
error a step raises, the pixels a sprite covers. -/

namespace Sys2Proof.Machine

/-! ## What an operation may change -/

/-- A part of the state an instruction may write, beside PC. -/
inductive Part where
  | reg (x : RegIdx)
  | index
  | stack
  | display
  deriving DecidableEq, Repr

/-- `t` is `s` but for PC and the parts listed: registers, memory and display are compared by reading them, byte by byte and
pixel by pixel. -/
structure Keeps (may : List Part) (s t : State) : Prop where
  regs : ∀ x : RegIdx, Part.reg x ∉ may → t.reg x = s.reg x
  index : Part.index ∉ may → t.i = s.i
  stack : Part.stack ∉ may → t.stack = s.stack
  display : Part.display ∉ may → ∀ x y : Nat, Display.pixel t.disp x y = Display.pixel s.disp x y
  timer : t.dt = s.dt
  memory : ∀ a : Nat, t.peek a = s.peek a
  status : t.status = s.status
  params : t.params = s.params

/-- The parts VF's collision write touches (10_state.md R21, R23): VF, when COLLISION_MODE is standard. -/
def collisionParts (c : Config) : List Part :=
  match c.collisionMode with
  | .standard => [.reg vf]
  | .none => []

/-- What each instruction may write beside PC: the Writes column of 10_state.md R21, R24 (I), R29 (the stack) and R31 (the
display). -/
def writtenParts (c : Config) : Instr → List Part
  | .cls => [.display]
  | .ret => [.stack]
  | .jp _ => []
  | .call _ => [.stack]
  | .seImm _ _ => []
  | .sneImm _ _ => []
  | .seReg _ _ => []
  | .ldImm x _ => [.reg x]
  | .addImm x _ => [.reg x]
  | .ldReg x _ => [.reg x]
  | .orReg x _ => [.reg x]
  | .andReg x _ => [.reg x]
  | .xorReg x _ => [.reg x]
  | .addReg x _ => [.reg x, .reg vf]
  | .sneReg _ _ => []
  | .ldI _ => [.index]
  | .drw _ _ _ => .display :: collisionParts c

/-- PC moves on by `k` bytes, as unbounded numbers. An instruction runs only after its two bytes were fetched (20_memory.md R55),
and then no 16-bit wrap can happen (10_state.md R27). -/
def AdvancesBy (k : Nat) (s t : State) : Prop := s.pc.toNat + 1 < 4096 → t.pc.toNat = s.pc.toNat + k

/-- PC after an instruction that raises nothing (10_state.md R26), from the state before its fetch. The sums are 16-bit
additions, whose wrap no run reaches (10_state.md R27; log entry 9). -/
def pcAfter (s : State) : Instr → Word
  | .jp nnn => zext16 nnn
  | .call nnn => zext16 nnn
  | .ret => s.stack.headD 0
  | .seImm x nn => if s.reg x = nn then s.pc + 4#16 else s.pc + 2#16
  | .sneImm x nn => if s.reg x = nn then s.pc + 2#16 else s.pc + 4#16
  | .seReg x y => if s.reg x = s.reg y then s.pc + 4#16 else s.pc + 2#16
  | .sneReg x y => if s.reg x = s.reg y then s.pc + 2#16 else s.pc + 4#16
  | _ => s.pc + 2#16

/-! ## The error of a step -/

/-- The big-endian word at an address (20_memory.md R54). -/
def State.wordAt (s : State) (a : Nat) : Word := wordOfBytes (s.peek a) (s.peek (a + 1))

/-- An instruction's own check (60_exceptions.md R216, item 3): the error and, for MemoryOutOfBounds, the address. -/
def checkOf (s : State) : Instr → Option StepError
  | .ret => if s.stack = [] then some ⟨.stackUnderflow, none⟩ else none
  | .call _ => if s.stack.length = s.params.stackDepth then some ⟨.stackOverflow, none⟩ else none
  | .drw _ _ n =>
    if 0 < n.toNat ∧ 4096 ≤ s.i.toNat + n.toNat - 1 then some ⟨.memoryOutOfBounds, some (max s.i.toNat 4096)⟩ else none
  | _ => none

/-- The error record of the one error a Running step raises, in the order of 60_exceptions.md R216: fetch, dispatch, the
instruction's own check. None if it raises nothing. -/
def errorOf (s : State) : Option ErrorRecord :=
  if 4096 ≤ s.pc.toNat + 1 then some ⟨.memoryOutOfBounds, some s.pc, none, some (max s.pc.toNat 4096)⟩
  else
    match decodeWord (s.wordAt s.pc.toNat) with
    | none => some ⟨.unimplementedOpcode, some s.pc, some (s.wordAt s.pc.toNat), none⟩
    | some i => (checkOf s i).map fun e => ⟨e.kind, some s.pc, some (s.wordAt s.pc.toNat), e.addr⟩

/-! ## The invariant -/

/-- A halted block's error record fits the table of 60_exceptions.md R210, `pc` being the PC the block halted at. -/
def RecordFits (pc : Word) (r : ErrorRecord) : Prop :=
  match r.kind with
  | .unimplementedOpcode => r.pc = some pc ∧ (∃ w, r.word = some w ∧ decodeWord w = none) ∧ r.addr = none
  | .stackOverflow => r.pc = some pc ∧ (∃ nnn, r.word = some (encode (.call nnn))) ∧ r.addr = none
  | .stackUnderflow => r.pc = some pc ∧ r.word = some 0x00EE#16 ∧ r.addr = none
  | .memoryOutOfBounds =>
    r.pc = some pc ∧
      ((r.word = none ∧ 4096 ≤ pc.toNat + 1 ∧ r.addr = some (max pc.toNat 4096)) ∨
        (∃ x y n, r.word = some (encode (.drw x y n)) ∧ 0 < n.toNat ∧ r.addr = some 4096))
  | .romTooLarge => r.pc = none ∧ r.word = none ∧ r.addr = none

/-- What holds of every reachable state. -/
structure Inv (s : State) : Prop where
  /-- STACK_DEPTH is positive (00_scope.md R8). -/
  params : s.params.wf
  /-- Memory keeps its canonical form. -/
  memory : Memory.wf (background s.params) s.mem
  /-- "I <= 0xFFF in every reachable state" (10_state.md R24). -/
  index : s.i.toNat ≤ 0xFFF
  /-- "PC <= 0x1002 in every reachable state" (10_state.md R27). -/
  pc : s.pc.toNat ≤ 0x1002
  /-- "0 <= depth <= STACK_DEPTH" (10_state.md R28). -/
  depth : s.stack.length ≤ s.params.stackDepth
  /-- "Every pushed value ... is at most 0x1000" (10_state.md R29). -/
  entries : ∀ w ∈ s.stack, w.toNat ≤ 0x1000
  /-- "DT keeps its reset value 0 for the whole run" (10_state.md R30). -/
  timer : s.dt = 0#8
  /-- The error record of a halt fits 60_exceptions.md R210. -/
  record : ∀ r, s.status = .halted r → RecordFits s.pc r

/-- A safe run so far: the invariant holds and no fatal error has occurred. -/
def Safe (s : State) : Prop := Inv s ∧ ∀ r, s.status ≠ .halted r

/-! ## Runs -/

/-- `k` steps one after another (70_reset_and_hazards.md R248), stopping at a fault or a refusal. -/
def steps : Nat → State → Result
  | 0, s => .next s
  | k + 1, s =>
    match step s with
    | .next t => steps k t
    | .fault r => .fault r
    | .refused r => .refused r

/-! ## Sprites -/

/-- Whether the sprite of `n` rows at I, drawn with its first pixel at (x0, y0), has a 1 for the pixel (px, py)
(43_display.md R181, R182): row r is the byte at I + r, column c its bit 7 - c. -/
def spriteCovers (s : State) (x0 y0 n px py : Nat) : Bool :=
  decide (x0 ≤ px ∧ px < x0 + 8 ∧ y0 ≤ py ∧ py < y0 + n) && (s.peek (s.i.toNat + (py - y0))).getLsbD (7 - (px - x0))

end Sys2Proof.Machine
end

