-- ==== Sys2Proof/Certificates/Slice0/Obligations.lean ====
section
/-! DEFINITION. The statements for the provers. `exec i s` runs on the state before the fetch of `i` and moves PC itself
(log entry 8); a fatal error is a next state (log entry 7). -/

open Sys2Proof Sys2Proof.Machine

/-! ## Encoding -/

/-- One word per row of spec 30_encoding.md R88, its bits written out from the row's encoding, and three unimplemented words.
A sanity check. That 0x5121, whose low nibble is no 0, is unimplemented is the spec's decision D8 (30_encoding.md R93; log
entry 13). -/
def Obligations.DecodesWordsWrittenFromTheTable : Prop :=
  decodeWord 0b0000000011100000#16 = some .cls ∧
  decodeWord 0b0000000011101110#16 = some .ret ∧
  decodeWord 0b0001001000110100#16 = some (.jp 0x234#12) ∧
  decodeWord 0b0010001100000000#16 = some (.call 0x300#12) ∧
  decodeWord 0b0011001101000010#16 = some (.seImm 0x3#4 0x42#8) ∧
  decodeWord 0b0100001101000010#16 = some (.sneImm 0x3#4 0x42#8) ∧
  decodeWord 0b0101000100100000#16 = some (.seReg 0x1#4 0x2#4) ∧
  decodeWord 0b0110101000101111#16 = some (.ldImm 0xA#4 0x2F#8) ∧
  decodeWord 0b0111000000100000#16 = some (.addImm 0x0#4 0x20#8) ∧
  decodeWord 0b1000000101010000#16 = some (.ldReg 0x1#4 0x5#4) ∧
  decodeWord 0b1000000100100001#16 = some (.orReg 0x1#4 0x2#4) ∧
  decodeWord 0b1000000100100010#16 = some (.andReg 0x1#4 0x2#4) ∧
  decodeWord 0b1000000100100011#16 = some (.xorReg 0x1#4 0x2#4) ∧
  decodeWord 0b1000000100100100#16 = some (.addReg 0x1#4 0x2#4) ∧
  decodeWord 0b1001000100100000#16 = some (.sneReg 0x1#4 0x2#4) ∧
  decodeWord 0b1010000000001010#16 = some (.ldI 0x00A#12) ∧
  decodeWord 0b1101000000010101#16 = some (.drw 0x0#4 0x1#4 0x5#4) ∧
  decodeWord 0b0101000100100001#16 = none ∧
  decodeWord 0b1000000100100101#16 = none ∧
  decodeWord 0b1111111111111111#16 = none

/-- The decoder's fields are the nibbles, the low byte and the low 12 bits of the word (30_encoding.md R81). -/
def Obligations.FieldsAreTheBitsOfTheWord : Prop :=
  ∀ w : Word,
    w.toNat = (decodeFields w).n1.toNat * 4096 + (decodeFields w).n2.toNat * 256 + (decodeFields w).n3.toNat * 16 +
      (decodeFields w).n4.toNat ∧
    (decodeFields w).nnn.toNat = (w &&& 0x0FFF#16).toNat ∧ (decodeFields w).nn.toNat = (w &&& 0x00FF#16).toNat ∧
    (decodeFields w).x = (decodeFields w).n2 ∧ (decodeFields w).y = (decodeFields w).n3 ∧
    (decodeFields w).n = (decodeFields w).n4 ∧ (decodeFields w).word = w

/-- Every row of 30_encoding.md R88: a word that fits its match and mask decodes to its instruction, with the fields of R81 at
every value (exact patterns are the spec's decision D8). -/
def Obligations.EveryRowDecodesWithItsFields : Prop :=
  ∀ w : Word,
    (w &&& 0xFFFF#16 = 0x00E0#16 → decodeWord w = some .cls) ∧
    (w &&& 0xFFFF#16 = 0x00EE#16 → decodeWord w = some .ret) ∧
    (w &&& 0xF000#16 = 0x1000#16 → decodeWord w = some (.jp (w.extractLsb' 0 12))) ∧
    (w &&& 0xF000#16 = 0x2000#16 → decodeWord w = some (.call (w.extractLsb' 0 12))) ∧
    (w &&& 0xF000#16 = 0x3000#16 → decodeWord w = some (.seImm (w.extractLsb' 8 4) (w.extractLsb' 0 8))) ∧
    (w &&& 0xF000#16 = 0x4000#16 → decodeWord w = some (.sneImm (w.extractLsb' 8 4) (w.extractLsb' 0 8))) ∧
    (w &&& 0xF00F#16 = 0x5000#16 → decodeWord w = some (.seReg (w.extractLsb' 8 4) (w.extractLsb' 4 4))) ∧
    (w &&& 0xF000#16 = 0x6000#16 → decodeWord w = some (.ldImm (w.extractLsb' 8 4) (w.extractLsb' 0 8))) ∧
    (w &&& 0xF000#16 = 0x7000#16 → decodeWord w = some (.addImm (w.extractLsb' 8 4) (w.extractLsb' 0 8))) ∧
    (w &&& 0xF00F#16 = 0x8000#16 → decodeWord w = some (.ldReg (w.extractLsb' 8 4) (w.extractLsb' 4 4))) ∧
    (w &&& 0xF00F#16 = 0x8001#16 → decodeWord w = some (.orReg (w.extractLsb' 8 4) (w.extractLsb' 4 4))) ∧
    (w &&& 0xF00F#16 = 0x8002#16 → decodeWord w = some (.andReg (w.extractLsb' 8 4) (w.extractLsb' 4 4))) ∧
    (w &&& 0xF00F#16 = 0x8003#16 → decodeWord w = some (.xorReg (w.extractLsb' 8 4) (w.extractLsb' 4 4))) ∧
    (w &&& 0xF00F#16 = 0x8004#16 → decodeWord w = some (.addReg (w.extractLsb' 8 4) (w.extractLsb' 4 4))) ∧
    (w &&& 0xF00F#16 = 0x9000#16 → decodeWord w = some (.sneReg (w.extractLsb' 8 4) (w.extractLsb' 4 4))) ∧
    (w &&& 0xF000#16 = 0xA000#16 → decodeWord w = some (.ldI (w.extractLsb' 0 12))) ∧
    (w &&& 0xF000#16 = 0xD000#16 →
      decodeWord w = some (.drw (w.extractLsb' 8 4) (w.extractLsb' 4 4) (w.extractLsb' 0 4)))

/-- Decoding the bytes of any instruction, with any bytes after them, gives the instruction back. -/
def Obligations.DecodeOfEncodeIsTheInstruction : Prop :=
  ∀ (i : Instr) (rest : List Byte), decode (encodeBytes i ++ rest) = .ok (i, rest)

/-- Each implemented word has one meaning: encoding what it decodes to gives the word back. So the word an error record
holds is the word that was fetched (log entry 8). -/
def Obligations.EncodeOfDecodeIsTheWord : Prop :=
  ∀ (w : Word) (i : Instr), decodeWord w = some i → encode i = w

/-- At most one row of the opcode table fits a word; the dispatch selects that row, and nothing if no row fits
(30_encoding.md R87, whose disjointness the spec marks as derived). -/
def Obligations.DispatchSelectsTheOneFittingRow : Prop :=
  ∀ w : Word,
    (∀ r ∈ opcodeTable, ∀ r' ∈ opcodeTable, r.fits w = true → r'.fits w = true → r = r') ∧
    (∀ r ∈ opcodeTable, r.fits w = true ↔ (decodeWord w).map Instr.row = some r.number) ∧
    (decodeWord w = none ↔ ∀ r ∈ opcodeTable, r.fits w = false)

/-- The line 30_encoding.md R94 writes for an instruction assembles to the instruction's word, DW to its raw word big-endian
(R95), and an ill-formed line to none. The notation is the spec's decision D14. -/
def Obligations.ListingAssemblesToTheEncoding : Prop :=
  (∀ i : Instr, assemble [i.line] = .ok (encodeBytes i)) ∧
  (∀ w : Word, assemble [.dw w.toNat] = .ok [hiByte w, loByte w]) ∧
  (∀ l : Line, l.wf = false → ∃ e, assembleLine l = .error e) ∧
  (∀ l : Line, l.wf = true → ∃ w, assembleLine l = .ok w)

/-! ## The step -/

/-- When the two bytes at PC decode to an instruction, a Running step is that instruction's exec, and nothing else is added
around it (30_encoding.md R85). The boundary operation Step (00_scope.md R13, decision D12) is that step on the block, in every
status, and closes the window of LoadRom (70_reset_and_hazards.md R246, decision D18; log entry 17). -/
def Obligations.StepRunsTheDecodedInstruction : Prop :=
  (∀ (s : State) (i : Instr), s.status = .running → s.pc.toNat + 1 < 4096 →
    decode [s.peek s.pc.toNat, s.peek (s.pc.toNat + 1)] = .ok (i, []) → step s = exec i s) ∧
  (∀ (b : Boundary) (t : State), step b.block = .next t →
    boundary .step b = .next { block := t, loadPermitted := false })

/-- A fetch that touches an address at or beyond 4096 raises MemoryOutOfBounds with the lowest such address and no word
(20_memory.md R55; the fetch at 0xFFF is the spec's decision D6, the precise halt D4). -/
def Obligations.FetchBeyondMemoryHalts : Prop :=
  ∀ s : State, s.status = .running → 4096 ≤ s.pc.toNat + 1 →
    step s = .next { s with status := .halted ⟨.memoryOutOfBounds, some s.pc, none, some (max s.pc.toNat 4096)⟩ }

/-- A word that matches no row of the table raises UnimplementedOpcode(word, pc), and all other state is as immediately
before the fetch (30_encoding.md R91, 60_exceptions.md R211). -/
def Obligations.UnimplementedWordHalts : Prop :=
  ∀ s : State, s.status = .running → s.pc.toNat + 1 < 4096 →
    (∀ r ∈ opcodeTable, r.fits (s.wordAt s.pc.toNat) = false) →
    step s =
      .next { s with status := .halted ⟨.unimplementedOpcode, some s.pc, some (s.wordAt s.pc.toNat), none⟩ }

/-- A step when Halted or Stopped changes nothing (30_encoding.md R86, the spec's decision D11). -/
def Obligations.StepWhenNotRunningDoesNothing : Prop :=
  ∀ s : State, s.status ≠ .running → step s = .next s

/-- No step and no instruction stops with a fault or a refusal, in any state: every error has the effect
60_exceptions.md R214 gives it (log entry 7). -/
def Obligations.EveryStepAndEveryInstructionCompletes : Prop :=
  (∀ s : State, ∃ t, step s = .next t) ∧ (∀ (i : Instr) (s : State), ∃ t, exec i s = .next t)

/-- A Running step raises exactly the error its checks give, in the order fetch, dispatch, execute (60_exceptions.md R210, R216,
decision D10), leaving all other state as it was (R214, D4); if they give none it stays Running. -/
def Obligations.StepRaisesExactlyItsFirstError : Prop :=
  ∀ s : State, s.status = .running → ∃ t, step s = .next t ∧
    (∀ r, errorOf s = some r → t = { s with status := .halted r }) ∧ (errorOf s = none → t.status = .running)

/-- An instruction whose own check fails changes nothing but the status, which records PC before the fetch and the
instruction's word (60_exceptions.md R214, decision D4). -/
def Obligations.FailedCheckRestoresTheState : Prop :=
  ∀ (i : Instr) (s : State) (e : StepError), checkOf s i = some e →
    exec i s = .next { s with status := .halted ⟨e.kind, some s.pc, some (encode i), e.addr⟩ }

/-- An instruction whose check passes changes, beside PC, only what 10_state.md R21, R24, R29 and R31 let it write. -/
def Obligations.FrameOfEveryInstruction : Prop :=
  ∀ (i : Instr) (s : State), checkOf s i = none →
    ∃ t, exec i s = .next t ∧ Keeps (writtenParts s.params i) s t

/-- PC after every instruction (10_state.md R26): as its table says where nothing is raised, and unchanged where the
instruction raises its error (decision D4). The sums A + 2 and A + 4 are 16-bit additions by log entry 9 (DEDUCED): they are the
table's own wherever the instruction can be fetched, PC + 1 < 4096, where 10_state.md R27 says no wrap can happen; the wrap at
PC >= 0xFFFC, which no run reaches, is the model's and not R26's. -/
def Obligations.PcAfterEveryInstruction : Prop :=
  ∀ (i : Instr) (s : State), ∃ t, exec i s = .next t ∧
    (checkOf s i = none → t.pc = pcAfter s i) ∧ (checkOf s i ≠ none → t.pc = s.pc)

/-! ## Invariants -/

/-- Every step keeps the invariant: memory stays canonical, I <= 0xFFF, PC <= 0x1002, the stack within its bound and its
entries at most 0x1000, DT = 0, and an error record fits 60_exceptions.md R210. -/
def Obligations.StepKeepsTheInvariant : Prop :=
  ∀ s t : State, Inv s → step s = .next t → Inv t

/-- Every boundary operation keeps the invariant, whatever image LoadRom is given. -/
def Obligations.BoundaryKeepsTheInvariant : Prop :=
  ∀ (op : HostOp) (b b' : Boundary), Inv b.block → boundary op b = .next b' → Inv b'.block

/-- The invariant holds after Reset, for any parameters with a positive STACK_DEPTH. -/
def Obligations.ResetMeetsTheInvariant : Prop :=
  (∀ c : Config, c.wf → Inv (State.resetWith c)) ∧ Inv State.reset

/-! ## Memory, timer, index, display: whole-machine rules -/

/-- MemWrite sets one byte, and no step and no Stop writes memory: only Reset and LoadRom do (20_memory.md R53). -/
def Obligations.MemoryChangesOnlyAtResetAndLoadRom : Prop :=
  (∀ (s : State) (a b : Nat) (v : Byte), a < 4096 → (s.memWrite a v).peek b = if b = a then v else s.peek b) ∧
  (∀ s t : State, step s = .next t → ∀ a : Nat, t.peek a = s.peek a) ∧
  (∀ (s : State) (a : Nat), (hostStop s).peek a = s.peek a)

/-- Only 00E0 and DXYN change the display, and no instruction moves a pixel into a register or memory other than through
DXYN's collision flag: two runs that differ only in the display agree on everything else but VF after DXYN
(43_display.md R190). -/
def Obligations.DisplayIsTouchedOnlyByClsAndDrw : Prop :=
  (∀ (i : Instr) (s t : State), exec i s = .next t → i ≠ .cls → (∀ x y n, i ≠ .drw x y n) →
    ∀ x y : Nat, Display.pixel t.disp x y = Display.pixel s.disp x y) ∧
  (∀ (i : Instr) (s : State) (d : Display), ∃ t t', exec i s = .next t ∧ exec i { s with disp := d } = .next t' ∧
    (∀ r : RegIdx, (r = vf ∧ ∃ x y n, i = .drw x y n) ∨ t'.reg r = t.reg r) ∧ (∀ a : Nat, t'.peek a = t.peek a) ∧
    t'.i = t.i ∧ t'.pc = t.pc ∧ t'.stack = t.stack ∧ t'.dt = t.dt ∧ t'.status = t.status)

/-- DT is inert (10_state.md R30): no instruction reads or writes it, no step changes it, it stays 0 over any sequence of
boundary operations (any images loaded), and the timer instructions FX15 and FX07 raise UnimplementedOpcode. -/
def Obligations.DelayTimerIsInert : Prop :=
  (∀ (i : Instr) (s : State) (w : Byte), ∃ t, exec i s = .next t ∧ t.dt = s.dt ∧
    exec i { s with dt := w } = .next { t with dt := w }) ∧
  (∀ s t : State, step s = .next t → t.dt = s.dt) ∧
  (∀ (ops : List HostOp) (b b' : Boundary), b.block.dt = 0x00#8 → boundaryRun ops b = .next b' → b'.block.dt = 0x00#8) ∧
  (∀ (s : State) (x : RegIdx), s.status = .running → s.pc.toNat + 1 < 4096 →
    (s.wordAt s.pc.toNat = 0xF#4 ++ x ++ 0x15#8 ∨ s.wordAt s.pc.toNat = 0xF#4 ++ x ++ 0x07#8) →
    step s = .next { s with status := .halted ⟨.unimplementedOpcode, some s.pc, some (s.wordAt s.pc.toNat), none⟩ })

/-- Only ANNN writes I, and only DXYN reads it: two runs of any other instruction that differ only in I agree on everything
else (42_index.md R171, 10_state.md R24). -/
def Obligations.IndexIsWrittenOnlyByLdIAndReadOnlyByDrw : Prop :=
  (∀ (i : Instr) (s t : State), exec i s = .next t → (∀ nnn, i ≠ .ldI nnn) → t.i = s.i) ∧
  (∀ (i : Instr) (s : State) (w : Word), (∀ x y n, i ≠ .drw x y n) →
    ∃ t t', exec i s = .next t ∧ exec i { s with i := w } = .next t' ∧ { t' with i := t.i } = t)

/-! ## Control transfer and skips -/

/-- 1NNN (40_flow.md R112): its encoding; PC becomes NNN, for every NNN, and nothing else changes; a target of 0xFFF faults at
the next fetch and not here; a jump to itself leaves the whole state as it was, and the block loops for ever (R120, which the spec
marks as derived). That the fault at 0xFFF changes only the status, PC kept, is the spec's decisions D4 and D6 (log entries 7
and 11); R112 says only that it faults there. -/
def Obligations.JumpLoadsPc : Prop :=
  (∀ w : Word, w &&& 0xF000#16 = 0x1000#16 → decodeWord w = some (.jp (w.extractLsb' 0 12))) ∧
  (∀ (nnn : Addr12) (s : State), ∃ t, exec (.jp nnn) s = .next t ∧ t.pc.toNat = nnn.toNat ∧ Keeps [] s t ∧
    (s.pc.toNat = nnn.toNat → t = s) ∧
    (nnn = 0xFFF#12 → s.status = .running → ∃ r, step t = .next { t with status := .halted r })) ∧
  (∀ (nnn : Addr12) (s : State) (k : Nat), s.status = .running → nnn.toNat + 1 < 4096 → s.pc.toNat = nnn.toNat →
    s.wordAt s.pc.toNat = encode (.jp nnn) → steps k s = .next s)

/-- 00EE (40_flow.md R111): the top of the stack is popped into PC as it is; on an empty stack StackUnderflow is raised and no
other state changes (decision D4). -/
def Obligations.ReturnPopsTheStack : Prop :=
  (∀ (s : State) (top : Word) (rest : List Word), s.stack = top :: rest →
    ∃ t, exec .ret s = .next t ∧ t.pc = top ∧ t.stack = rest ∧ Keeps [.stack] s t) ∧
  (∀ s : State, s.stack = [] →
    exec .ret s = .next { s with status := .halted ⟨.stackUnderflow, some s.pc, some 0x00EE#16, none⟩ })

/-- 2NNN (40_flow.md R113): with room on the stack, A + 2 is pushed and PC becomes NNN; with STACK_DEPTH entries StackOverflow is
raised and no other state changes (decisions D3, D4). -/
def Obligations.CallPushesTheReturnAddress : Prop :=
  (∀ (nnn : Addr12) (s : State), s.stack.length < s.params.stackDepth →
    ∃ t top, exec (.call nnn) s = .next t ∧ t.pc.toNat = nnn.toNat ∧ t.stack = top :: s.stack ∧
      (s.pc.toNat + 1 < 4096 → top.toNat = s.pc.toNat + 2) ∧ Keeps [.stack] s t) ∧
  (∀ (nnn : Addr12) (s : State), s.stack.length = s.params.stackDepth →
    exec (.call nnn) s = .next { s with status := .halted ⟨.stackOverflow, some s.pc, some (encode (.call nnn)), none⟩ })

/-- Executing 2NNN then 00EE from P restores PC to P + 2, and everything else (40_flow.md R113; "valid NNN" as
91_not_in_source.md N23 reads it: 00EE stands at NNN and can be fetched). -/
def Obligations.CallThenReturnComesBack : Prop :=
  ∀ (s : State) (nnn : Addr12), s.status = .running → s.pc.toNat + 1 < 4096 → s.wordAt s.pc.toNat = encode (.call nnn) →
    s.stack.length < s.params.stackDepth → nnn.toNat + 1 < 4096 → s.wordAt nnn.toNat = 0x00EE#16 →
    steps 2 s = .next { s with pc := s.pc + 2#16 }

/-- 3XNN and 4XNN (40_flow.md R114, R115): their encodings; PC becomes A + 4 if V[X] = NN (V[X] != NN), else A + 2, and nothing
else changes. -/
def Obligations.SkipsOnAnImmediate : Prop :=
  (∀ w : Word, w &&& 0xF000#16 = 0x3000#16 → decodeWord w = some (.seImm (w.extractLsb' 8 4) (w.extractLsb' 0 8))) ∧
  (∀ w : Word, w &&& 0xF000#16 = 0x4000#16 → decodeWord w = some (.sneImm (w.extractLsb' 8 4) (w.extractLsb' 0 8))) ∧
  (∀ (x : RegIdx) (nn : Byte) (s : State), ∃ t, exec (.seImm x nn) s = .next t ∧
    (s.reg x = nn → AdvancesBy 4 s t) ∧ (s.reg x ≠ nn → AdvancesBy 2 s t) ∧ Keeps [] s t) ∧
  (∀ (x : RegIdx) (nn : Byte) (s : State), ∃ t, exec (.sneImm x nn) s = .next t ∧
    (s.reg x ≠ nn → AdvancesBy 4 s t) ∧ (s.reg x = nn → AdvancesBy 2 s t) ∧ Keeps [] s t)

/-- 5XY0 and 9XY0 (40_flow.md R116, R117): PC becomes A + 4 if V[X] = V[Y] (V[X] != V[Y]), else A + 2, and nothing else changes;
with X = Y, 5XY0 always skips and 9XY0 never. Exact patterns are the spec's decision D8. -/
def Obligations.SkipsOnTwoRegisters : Prop :=
  (∀ (x y : RegIdx) (s : State), ∃ t, exec (.seReg x y) s = .next t ∧
    (s.reg x = s.reg y → AdvancesBy 4 s t) ∧ (s.reg x ≠ s.reg y → AdvancesBy 2 s t) ∧ (x = y → AdvancesBy 4 s t) ∧
    Keeps [] s t) ∧
  (∀ (x y : RegIdx) (s : State), ∃ t, exec (.sneReg x y) s = .next t ∧
    (s.reg x ≠ s.reg y → AdvancesBy 4 s t) ∧ (s.reg x = s.reg y → AdvancesBy 2 s t) ∧ (x = y → AdvancesBy 2 s t) ∧
    Keeps [] s t)

/-! ## Register loads and ALU -/

/-- 6XNN (41_alu.md R141): its encoding; V[X] becomes NN (X = F included), PC moves on by 2, nothing else changes. -/
def Obligations.LoadImmediateSetsTheRegister : Prop :=
  (∀ w : Word, w &&& 0xF000#16 = 0x6000#16 → decodeWord w = some (.ldImm (w.extractLsb' 8 4) (w.extractLsb' 0 8))) ∧
  (∀ (x : RegIdx) (nn : Byte) (s : State), ∃ t, exec (.ldImm x nn) s = .next t ∧
    t.reg x = nn ∧ AdvancesBy 2 s t ∧ Keeps [.reg x] s t)

/-- 7XNN (41_alu.md R142): its encoding; V[X] becomes (V[X] + NN) mod 256, PC moves on by 2, and nothing else changes: VF is
written only as the destination, when X = F. -/
def Obligations.AddImmediateWrapsAndSetsNoCarry : Prop :=
  (∀ w : Word, w &&& 0xF000#16 = 0x7000#16 → decodeWord w = some (.addImm (w.extractLsb' 8 4) (w.extractLsb' 0 8))) ∧
  (∀ (x : RegIdx) (nn : Byte) (s : State), ∃ t, exec (.addImm x nn) s = .next t ∧
    (t.reg x).toNat = ((s.reg x).toNat + nn.toNat) % 256 ∧ AdvancesBy 2 s t ∧ Keeps [.reg x] s t)

/-- 8XY0 (41_alu.md R146): its encoding; V[X] becomes V[Y] in either ALU_MODE, PC moves on by 2, nothing else changes, and with
X = Y nothing but PC changes. -/
def Obligations.CopyRegisterCopies : Prop :=
  (∀ w : Word, w &&& 0xF00F#16 = 0x8000#16 → decodeWord w = some (.ldReg (w.extractLsb' 8 4) (w.extractLsb' 4 4))) ∧
  (∀ (x y : RegIdx) (s : State), ∃ t, exec (.ldReg x y) s = .next t ∧
    t.reg x = s.reg y ∧ AdvancesBy 2 s t ∧ Keeps [.reg x] s t ∧ (x = y → Keeps [] s t))

/-- 8XY1, 8XY2 and 8XY3 (41_alu.md R147, R148, R149) in both ALU_MODEs (decision D1): the destination's new value; VF is written
only when X = F; PC moves on by 2; nothing else changes. -/
def Obligations.LogicOperationsInBothModes : Prop :=
  (∀ (x y : RegIdx) (s : State), ∃ t, exec (.orReg x y) s = .next t ∧
    (s.params.aluMode = .standard → t.reg x = s.reg x ||| s.reg y) ∧
    (s.params.aluMode = .sourceFaithful → t.reg x = s.reg y) ∧ AdvancesBy 2 s t ∧ Keeps [.reg x] s t) ∧
  (∀ (x y : RegIdx) (s : State), ∃ t, exec (.andReg x y) s = .next t ∧
    (s.params.aluMode = .standard → t.reg x = s.reg x &&& s.reg y) ∧
    (s.params.aluMode = .sourceFaithful → t.reg x = s.reg y) ∧ AdvancesBy 2 s t ∧ Keeps [.reg x] s t) ∧
  (∀ (x y : RegIdx) (s : State), ∃ t, exec (.xorReg x y) s = .next t ∧
    (s.params.aluMode = .standard → t.reg x = s.reg x ^^^ s.reg y) ∧
    (s.params.aluMode = .sourceFaithful → t.reg x = 0x00#8) ∧ AdvancesBy 2 s t ∧ Keeps [.reg x] s t)

/-- 8XY4 (41_alu.md R151) in both ALU_MODEs (decisions D1, D16, D25): with a = V[X] (standard) or V[Y] (source_faithful) and
b = V[Y], read before any write, VF ends as the carry of a + b, and V[X] as the sum mod 256 unless X = F. -/
def Obligations.AddRegisterSetsSumAndCarry : Prop :=
  ∀ (x y : RegIdx) (s : State) (a : Byte),
    (s.params.aluMode = .standard → a = s.reg x) → (s.params.aluMode = .sourceFaithful → a = s.reg y) →
    ∃ t, exec (.addReg x y) s = .next t ∧
      (256 ≤ a.toNat + (s.reg y).toNat → t.reg vf = 1#8) ∧ (a.toNat + (s.reg y).toNat < 256 → t.reg vf = 0#8) ∧
      (x ≠ vf → (t.reg x).toNat = (a.toNat + (s.reg y).toNat) % 256) ∧ AdvancesBy 2 s t ∧
      Keeps [.reg x, .reg vf] s t

/-! ## Index register and display -/

/-- ANNN (42_index.md R170): its encoding; I becomes NNN, for every NNN, PC moves on by 2, nothing else changes; with NNN =
0xFFF a DXYN that follows faults if N >= 2 and completes if N = 1. That the fault changes only the status, display and PC kept
although row 0xFFF can be read, is the spec's decisions D4 and D7 (log entries 7 and 12); R170 says only that it faults. -/
def Obligations.LoadIndexSetsI : Prop :=
  (∀ w : Word, w &&& 0xF000#16 = 0xA000#16 → decodeWord w = some (.ldI (w.extractLsb' 0 12))) ∧
  (∀ (nnn : Addr12) (s : State), ∃ t, exec (.ldI nnn) s = .next t ∧
    t.i.toNat = nnn.toNat ∧ AdvancesBy 2 s t ∧ Keeps [.index] s t ∧
    (nnn = 0xFFF#12 → ∀ (x y : RegIdx) (n : Nibble),
      (2 ≤ n.toNat → ∃ r, exec (.drw x y n) t = .next { t with status := .halted r }) ∧
      (n.toNat = 1 → ∃ u, exec (.drw x y n) t = .next u ∧ u.status = s.status)))

/-- 00E0 (43_display.md R180): its encoding; every pixel is 0 after it, whatever stood there, a snapshot is 2048 zeros, PC moves
on by 2, nothing else changes; on a clear display nothing but PC changes. -/
def Obligations.ClearScreenClearsEveryPixel : Prop :=
  (∀ w : Word, decodeWord w = some .cls ↔ w = 0x00E0#16) ∧
  (∀ s : State, ∃ t, exec .cls s = .next t ∧ (∀ x y : Nat, Display.pixel t.disp x y = false) ∧
    displaySnapshot t = List.replicate 2048 false ∧ AdvancesBy 2 s t ∧ Keeps [.display] s t ∧
    ((∀ x y : Nat, Display.pixel s.disp x y = false) → Keeps [] s t))

/-- DXYN (43_display.md R183, R185, R187, R188; decisions D2, D7, D31) where every row can be read: each pixel on the grid is
XORed with the sprite's bit for it, bits off the grid are clipped, VF becomes the collision flag when COLLISION_MODE is
standard and is kept when it is none, PC moves on by 2, nothing else changes. -/
def Obligations.DrawXorsTheSpriteAndReportsCollision : Prop :=
  ∀ (x y : RegIdx) (n : Nibble) (s : State), (n.toNat = 0 ∨ s.i.toNat + n.toNat - 1 < 4096) →
    ∃ t, exec (.drw x y n) s = .next t ∧
      (∀ px py : Nat, px < 64 → py < 32 → Display.pixel t.disp px py =
        (Display.pixel s.disp px py ^^ spriteCovers s (s.reg x).toNat (s.reg y).toNat n.toNat px py)) ∧
      (s.params.collisionMode = .standard →
        ((∃ px py : Nat, px < 64 ∧ py < 32 ∧ Display.pixel s.disp px py = true ∧
          spriteCovers s (s.reg x).toNat (s.reg y).toNat n.toNat px py = true) → t.reg vf = 1#8) ∧
        ((∀ px py : Nat, px < 64 → py < 32 → Display.pixel s.disp px py = true →
          spriteCovers s (s.reg x).toNat (s.reg y).toNat n.toNat px py = false) → t.reg vf = 0#8)) ∧
      (s.params.collisionMode = .none → t.reg vf = s.reg vf) ∧
      AdvancesBy 2 s t ∧ Keeps (.display :: collisionParts s.params) s t

/-- DXYN with a row at or beyond 4096 raises MemoryOutOfBounds with the lowest such address, before any pixel or VF changes
(20_memory.md R56, 43_display.md R183; decisions D4, D7), even where every pixel would be clipped (D26). -/
def Obligations.DrawBeyondMemoryHalts : Prop :=
  ∀ (x y : RegIdx) (n : Nibble) (s : State), 0 < n.toNat → 4096 ≤ s.i.toNat + n.toNat - 1 →
    exec (.drw x y n) s = .next
      { s with status := .halted ⟨.memoryOutOfBounds, some s.pc, some (encode (.drw x y n)), some (max s.i.toNat 4096)⟩ }

/-- DXY0 (43_display.md R186, decision D15) and a sprite whose start is off the grid (R185) change no pixel; VF becomes 0 when
COLLISION_MODE is standard and is kept when it is none (R187, decision D2; log entry 3); DXY0 cannot fault, whatever I is. -/
def Obligations.EmptyAndOffGridDrawsChangeNoPixel : Prop :=
  ∀ (x y : RegIdx) (n : Nibble) (s : State),
    (n.toNat = 0 ∨ (s.i.toNat + n.toNat - 1 < 4096 ∧ (64 ≤ (s.reg x).toNat ∨ 32 ≤ (s.reg y).toNat))) →
    ∃ t, exec (.drw x y n) s = .next t ∧ (s.params.collisionMode = .standard → t.reg vf = 0#8) ∧
      (s.params.collisionMode = .none → t.reg vf = s.reg vf) ∧
      AdvancesBy 2 s t ∧ Keeps (collisionParts s.params) s t

/-- XOR involution (43_display.md R189): drawing the same sprite twice at the same coordinates restores every pixel, in both
COLLISION_MODEs; and if the first draw turned a pixel on, the second gives VF = 1 in standard mode (decision D2). -/
def Obligations.DrawingTwiceRestoresTheDisplay : Prop :=
  ∀ (x y : RegIdx) (n : Nibble) (s t u : State), (n.toNat = 0 ∨ s.i.toNat + n.toNat - 1 < 4096) →
    exec (.drw x y n) s = .next t → exec (.drw x y n) t = .next u → t.reg x = s.reg x → t.reg y = s.reg y →
    (∀ px py : Nat, Display.pixel u.disp px py = Display.pixel s.disp px py) ∧
    (s.params.collisionMode = .standard →
      (∃ px py : Nat, Display.pixel s.disp px py = false ∧ Display.pixel t.disp px py = true) → u.reg vf = 1#8)

/-! ## Reset and the boundary -/

/-- Reset, in every status, gives every piece of state the value of 10_state.md R37 (decisions D11, D12, D17), keeps the
parameters (log entry 16), and opens the window of LoadRom (70_reset_and_hazards.md R246, decision D18; log entry 17). The bytes
are R37's for addresses below 4096; that a read at or beyond 4096, which no instruction makes, gives 0x00 is the model's choice
(log entry 35). -/
def Obligations.ResetGivesTheResetValues : Prop :=
  ∀ b : Boundary, ∃ b', boundary .reset b = .next b' ∧
    (∀ r : RegIdx, b'.block.reg r = 0x00#8) ∧ b'.block.i = 0x0000#16 ∧ b'.block.pc = 0x0200#16 ∧ b'.block.stack = [] ∧
    b'.block.dt = 0x00#8 ∧ (∀ (k : Nat) (h : k < 80), b'.block.peek k = b.block.params.font[k]) ∧
    (∀ a : Nat, 80 ≤ a → b'.block.peek a = 0x00#8) ∧ (∀ x y : Nat, Display.pixel b'.block.disp x y = false) ∧
    b'.block.status = .running ∧ b'.block.params = b.block.params ∧ b'.loadPermitted = true

/-- The font preload (70_reset_and_hazards.md R241): after Reset, M[0x000 + k] = FONT[k] for k in 0..79, and row r of glyph g is
the byte at 5g + r. -/
def Obligations.FontIsPreloadedAtZero : Prop :=
  ∀ s : State,
    (∀ (k : Nat) (h : k < 80), (hostReset s).peek (0x000 + k) = s.params.font[k]) ∧
    (∀ (g r : Nat) (hg : g < 16) (hr : r < 5),
      (hostReset s).peek (5 * g + r) = s.params.font[5 * g + r]'(Nat.lt_of_lt_of_le (Nat.add_lt_add_left hr _) (by omega)))

/-- LoadRom in its window (70_reset_and_hazards.md R245; decisions D18, D29): an image that fits, of any length, stands at 0x200
byte for byte, every other byte is kept, and no register, PC or pixel changes; the window is closed (R246). -/
def Obligations.LoadRomPlacesTheImage : Prop :=
  ∀ (b : Boundary) (bytes : List Byte), b.block.status = .running → b.loadPermitted = true → bytes.length ≤ 3584 →
    ∃ b', boundary (.loadRom bytes) b = .next b' ∧ b'.loadPermitted = false ∧
      (∀ (k : Nat) (h : k < bytes.length), b'.block.peek (0x200 + k) = bytes[k]) ∧
      (∀ a : Nat, (a < 0x200 ∨ 0x200 + bytes.length ≤ a) → b'.block.peek a = b.block.peek a) ∧
      ∃ m, b'.block = { b.block with mem := m }

/-- LoadRom of an oversized image raises RomTooLarge and writes no byte (60_exceptions.md R217, decision D18). -/
def Obligations.OversizedRomHaltsAndWritesNothing : Prop :=
  ∀ (b : Boundary) (bytes : List Byte), b.block.status = .running → b.loadPermitted = true → 3584 < bytes.length →
    boundary (.loadRom bytes) b =
      .next { block := { b.block with status := .halted ⟨.romTooLarge, none, none, none⟩ }, loadPermitted := false }

/-- A second LoadRom, or one after a Step, on a Running block is refused by name (70_reset_and_hazards.md R246, decision D18):
after a LoadRom or a Step that leaves the block Running, LoadRom is refused. -/
def Obligations.LateLoadRomIsRefused : Prop :=
  ∀ (op : HostOp) (b b' : Boundary) (bytes : List Byte), (op = .step ∨ ∃ image, op = .loadRom image) →
    boundary op b = .next b' → b'.block.status = .running → boundary (.loadRom bytes) b' = .refused .loadRomOutsideWindow

/-- Halted and Stopped are absorbing for Step, Stop and LoadRom, and Reset leaves them (60_exceptions.md R218, R222; decision
D11; LoadRom in Stopped: log entry 18). -/
def Obligations.HaltedAndStoppedAreAbsorbing : Prop :=
  ∀ b : Boundary, b.block.status ≠ .running →
    (∀ op : HostOp, op ≠ .reset → ∃ b', boundary op b = .next b' ∧ b'.block = b.block) ∧
    (∃ b', boundary .reset b = .next b' ∧ b'.block.status = .running)

/-- Stop on a Running block sets Stopped and changes nothing else, and the steps after it do nothing (60_exceptions.md R222,
decision D19). -/
def Obligations.StopEndsTheRun : Prop :=
  ∀ (b : Boundary) (k : Nat), b.block.status = .running →
    ∃ b', boundary .stop b = .next b' ∧ b'.block = { b.block with status := .stopped } ∧
      steps k b'.block = .next b'.block

/-- DisplaySnapshot is the 2048 pixels in row-major order, pixel y * 64 + x (43_display.md R195, decision D21). -/
def Obligations.SnapshotIsRowMajor : Prop :=
  ∀ s : State, (displaySnapshot s).length = 2048 ∧
    ∀ x y : Nat, x < 64 → y < 32 → (displaySnapshot s)[y * 64 + x]? = some (Display.pixel s.disp x y)

/-- Inspect shows V, I, PC, the stack with its depth, DT, every byte of memory and the Status with its code (10_state.md R34,
R32), 0 unless Halted and else the number 60_exceptions.md R210 gives the record's kind (decisions D9, D12). -/
def Obligations.InspectShowsTheState : Prop :=
  ∀ s : State, (∀ r : RegIdx, (inspect s).v[r.toNat]? = some (s.reg r)) ∧ (inspect s).v.length = 16 ∧
    (inspect s).i = s.i ∧ (inspect s).pc = s.pc ∧ (inspect s).stack.reverse = s.stack ∧
    (inspect s).depth = (inspect s).stack.length ∧ (inspect s).dt = s.dt ∧ (inspect s).mem.length = 4096 ∧
    (∀ a : Nat, a < 4096 → (inspect s).mem[a]? = some (s.peek a)) ∧ (inspect s).status.status = s.status ∧
    ((inspect s).status.code = 0 ↔ ∀ r, s.status ≠ .halted r) ∧
    (∀ r, s.status = .halted r →
      (r.kind = .unimplementedOpcode → (inspect s).status.code = 1) ∧
      (r.kind = .stackOverflow → (inspect s).status.code = 2) ∧
      (r.kind = .stackUnderflow → (inspect s).status.code = 3) ∧
      (r.kind = .memoryOutOfBounds → (inspect s).status.code = 4) ∧
      (r.kind = .romTooLarge → (inspect s).status.code = 5)) ∧
    statusReport s = (inspect s).status

/-- A Step without a LoadRom runs from zeroed memory at 0x200 and raises UnimplementedOpcode(0x0000) at once
(70_reset_and_hazards.md R247, which the spec marks as derived), for any parameters. -/
def Obligations.StepWithoutRomHalts : Prop :=
  ∀ c : Config, step (State.resetWith c) = .next { State.resetWith c with
    status := .halted ⟨.unimplementedOpcode, some 0x0200#16, some 0x0000#16, none⟩ }
end

