-- ==== Sys2Proof/Laws/Decode.lean ====
section
/-! SUPPORT. The fields of a word written as a concatenation, the shapes `encode` builds, and every word as four nibbles. -/

namespace Sys2Proof

section
variable (a x y n : Nibble) (nn : Byte) (nnn : Addr12)

@[simp] theorem class_of_nnn : BitVec.extractLsb' 12 4 (a ++ nnn : Word) = a := by
  apply BitVec.eq_of_getLsbD_eq; intro i hi; simp; grind
@[simp] theorem nnn_of_nnn : BitVec.extractLsb' 0 12 (a ++ nnn : Word) = nnn := by
  apply BitVec.eq_of_getLsbD_eq; intro i hi; simp; grind
@[simp] theorem class_of_xnn : BitVec.extractLsb' 12 4 (a ++ x ++ nn : Word) = a := by
  apply BitVec.eq_of_getLsbD_eq; intro i hi; simp; grind
@[simp] theorem x_of_xnn : BitVec.extractLsb' 8 4 (a ++ x ++ nn : Word) = x := by
  apply BitVec.eq_of_getLsbD_eq; intro i hi; simp; grind
@[simp] theorem nn_of_xnn : BitVec.extractLsb' 0 8 (a ++ x ++ nn : Word) = nn := by
  apply BitVec.eq_of_getLsbD_eq; intro i hi; simp; grind
@[simp] theorem class_of_xyn : BitVec.extractLsb' 12 4 (a ++ x ++ y ++ n : Word) = a := by
  apply BitVec.eq_of_getLsbD_eq; intro i hi; simp; grind
@[simp] theorem x_of_xyn : BitVec.extractLsb' 8 4 (a ++ x ++ y ++ n : Word) = x := by
  apply BitVec.eq_of_getLsbD_eq; intro i hi; simp; grind
@[simp] theorem y_of_xyn : BitVec.extractLsb' 4 4 (a ++ x ++ y ++ n : Word) = y := by
  apply BitVec.eq_of_getLsbD_eq; intro i hi; simp; grind
@[simp] theorem n_of_xyn : BitVec.extractLsb' 0 4 (a ++ x ++ y ++ n : Word) = n := by
  apply BitVec.eq_of_getLsbD_eq; intro i hi; simp; grind

end

/-- Every word is its four nibbles (30_encoding.md R81). -/
theorem word_eq_nibbles (w : Word) :
    w = w.extractLsb' 12 4 ++ w.extractLsb' 8 4 ++ w.extractLsb' 4 4 ++ w.extractLsb' 0 4 := by
  apply BitVec.eq_of_getLsbD_eq; intro i hi; simp; grind

/-- The low byte of a word of nibbles is its last two. -/
theorem nn_of_nibbles (a x y n : Nibble) : BitVec.extractLsb' 0 8 (a ++ x ++ y ++ n : Word) = y ++ n := by
  apply BitVec.eq_of_getLsbD_eq; intro i hi; simp; grind

/-- The low 12 bits of a word of nibbles are its last three. -/
theorem nnn_of_nibbles (a x y n : Nibble) : BitVec.extractLsb' 0 12 (a ++ x ++ y ++ n : Word) = x ++ y ++ n := by
  apply BitVec.eq_of_getLsbD_eq; intro i hi; simp; grind

/-- The bytes of a word, put together, are the word (20_memory.md R54). -/
@[simp] theorem wordOfBytes_hi_lo (w : Word) : wordOfBytes (hiByte w) (loByte w) = w := by
  apply BitVec.eq_of_getLsbD_eq; intro i hi; simp [wordOfBytes, hiByte, loByte]; grind

@[simp] theorem hiByte_wordOfBytes (hi lo : Byte) : hiByte (wordOfBytes hi lo) = hi := by
  apply BitVec.eq_of_getLsbD_eq; intro i hi; simp [wordOfBytes, hiByte]; grind

@[simp] theorem loByte_wordOfBytes (hi lo : Byte) : loByte (wordOfBytes hi lo) = lo := by
  apply BitVec.eq_of_getLsbD_eq; intro i hi; simp [wordOfBytes, loByte]; grind

end Sys2Proof
end

