-- ==== Sys2Proof/Laws/State.lean ====
section
/-! SUPPORT. One lemma per field per update of State, and reading a register or a byte after each update, so that no proof
unfolds a record update. -/

namespace Sys2Proof.Machine

/-! ## setReg -/

@[simp] theorem State.setReg_v (s : State) (x : RegIdx) (b : Byte) : (s.setReg x b).v = s.v.set x.toNat b x.isLt := rfl
@[simp] theorem State.setReg_i (s : State) (x : RegIdx) (b : Byte) : (s.setReg x b).i = s.i := rfl
@[simp] theorem State.setReg_pc (s : State) (x : RegIdx) (b : Byte) : (s.setReg x b).pc = s.pc := rfl
@[simp] theorem State.setReg_stack (s : State) (x : RegIdx) (b : Byte) : (s.setReg x b).stack = s.stack := rfl
@[simp] theorem State.setReg_dt (s : State) (x : RegIdx) (b : Byte) : (s.setReg x b).dt = s.dt := rfl
@[simp] theorem State.setReg_mem (s : State) (x : RegIdx) (b : Byte) : (s.setReg x b).mem = s.mem := rfl
@[simp] theorem State.setReg_disp (s : State) (x : RegIdx) (b : Byte) : (s.setReg x b).disp = s.disp := rfl
@[simp] theorem State.setReg_status (s : State) (x : RegIdx) (b : Byte) : (s.setReg x b).status = s.status := rfl
@[simp] theorem State.setReg_params (s : State) (x : RegIdx) (b : Byte) : (s.setReg x b).params = s.params := rfl
@[simp] theorem State.setReg_peek (s : State) (x : RegIdx) (b : Byte) (a : Nat) : (s.setReg x b).peek a = s.peek a := rfl

/-! ## setI -/

@[simp] theorem State.setI_v (s : State) (w : Word) : (s.setI w).v = s.v := rfl
@[simp] theorem State.setI_i (s : State) (w : Word) : (s.setI w).i = w := rfl
@[simp] theorem State.setI_pc (s : State) (w : Word) : (s.setI w).pc = s.pc := rfl
@[simp] theorem State.setI_stack (s : State) (w : Word) : (s.setI w).stack = s.stack := rfl
@[simp] theorem State.setI_dt (s : State) (w : Word) : (s.setI w).dt = s.dt := rfl
@[simp] theorem State.setI_mem (s : State) (w : Word) : (s.setI w).mem = s.mem := rfl
@[simp] theorem State.setI_disp (s : State) (w : Word) : (s.setI w).disp = s.disp := rfl
@[simp] theorem State.setI_status (s : State) (w : Word) : (s.setI w).status = s.status := rfl
@[simp] theorem State.setI_params (s : State) (w : Word) : (s.setI w).params = s.params := rfl
@[simp] theorem State.setI_reg (s : State) (w : Word) (r : RegIdx) : (s.setI w).reg r = s.reg r := rfl
@[simp] theorem State.setI_peek (s : State) (w : Word) (a : Nat) : (s.setI w).peek a = s.peek a := rfl

/-! ## setPc -/

@[simp] theorem State.setPc_v (s : State) (w : Word) : (s.setPc w).v = s.v := rfl
@[simp] theorem State.setPc_i (s : State) (w : Word) : (s.setPc w).i = s.i := rfl
@[simp] theorem State.setPc_pc (s : State) (w : Word) : (s.setPc w).pc = w := rfl
@[simp] theorem State.setPc_stack (s : State) (w : Word) : (s.setPc w).stack = s.stack := rfl
@[simp] theorem State.setPc_dt (s : State) (w : Word) : (s.setPc w).dt = s.dt := rfl
@[simp] theorem State.setPc_mem (s : State) (w : Word) : (s.setPc w).mem = s.mem := rfl
@[simp] theorem State.setPc_disp (s : State) (w : Word) : (s.setPc w).disp = s.disp := rfl
@[simp] theorem State.setPc_status (s : State) (w : Word) : (s.setPc w).status = s.status := rfl
@[simp] theorem State.setPc_params (s : State) (w : Word) : (s.setPc w).params = s.params := rfl
@[simp] theorem State.setPc_reg (s : State) (w : Word) (r : RegIdx) : (s.setPc w).reg r = s.reg r := rfl
@[simp] theorem State.setPc_peek (s : State) (w : Word) (a : Nat) : (s.setPc w).peek a = s.peek a := rfl

/-! ## setStack -/

@[simp] theorem State.setStack_v (s : State) (l : List Word) : (s.setStack l).v = s.v := rfl
@[simp] theorem State.setStack_i (s : State) (l : List Word) : (s.setStack l).i = s.i := rfl
@[simp] theorem State.setStack_pc (s : State) (l : List Word) : (s.setStack l).pc = s.pc := rfl
@[simp] theorem State.setStack_stack (s : State) (l : List Word) : (s.setStack l).stack = l := rfl
@[simp] theorem State.setStack_dt (s : State) (l : List Word) : (s.setStack l).dt = s.dt := rfl
@[simp] theorem State.setStack_mem (s : State) (l : List Word) : (s.setStack l).mem = s.mem := rfl
@[simp] theorem State.setStack_disp (s : State) (l : List Word) : (s.setStack l).disp = s.disp := rfl
@[simp] theorem State.setStack_status (s : State) (l : List Word) : (s.setStack l).status = s.status := rfl
@[simp] theorem State.setStack_params (s : State) (l : List Word) : (s.setStack l).params = s.params := rfl
@[simp] theorem State.setStack_reg (s : State) (l : List Word) (r : RegIdx) : (s.setStack l).reg r = s.reg r := rfl
@[simp] theorem State.setStack_peek (s : State) (l : List Word) (a : Nat) : (s.setStack l).peek a = s.peek a := rfl

/-! ## setDisp -/

@[simp] theorem State.setDisp_v (s : State) (d : Display) : (s.setDisp d).v = s.v := rfl
@[simp] theorem State.setDisp_i (s : State) (d : Display) : (s.setDisp d).i = s.i := rfl
@[simp] theorem State.setDisp_pc (s : State) (d : Display) : (s.setDisp d).pc = s.pc := rfl
@[simp] theorem State.setDisp_stack (s : State) (d : Display) : (s.setDisp d).stack = s.stack := rfl
@[simp] theorem State.setDisp_dt (s : State) (d : Display) : (s.setDisp d).dt = s.dt := rfl
@[simp] theorem State.setDisp_mem (s : State) (d : Display) : (s.setDisp d).mem = s.mem := rfl
@[simp] theorem State.setDisp_disp (s : State) (d : Display) : (s.setDisp d).disp = d := rfl
@[simp] theorem State.setDisp_status (s : State) (d : Display) : (s.setDisp d).status = s.status := rfl
@[simp] theorem State.setDisp_params (s : State) (d : Display) : (s.setDisp d).params = s.params := rfl
@[simp] theorem State.setDisp_reg (s : State) (d : Display) (r : RegIdx) : (s.setDisp d).reg r = s.reg r := rfl
@[simp] theorem State.setDisp_peek (s : State) (d : Display) (a : Nat) : (s.setDisp d).peek a = s.peek a := rfl

/-! ## advance -/

@[simp] theorem State.advance_v (s : State) : (s.advance).v = s.v := rfl
@[simp] theorem State.advance_i (s : State) : (s.advance).i = s.i := rfl
@[simp] theorem State.advance_pc (s : State) : (s.advance).pc = s.pc + 2#16 := rfl
@[simp] theorem State.advance_stack (s : State) : (s.advance).stack = s.stack := rfl
@[simp] theorem State.advance_dt (s : State) : (s.advance).dt = s.dt := rfl
@[simp] theorem State.advance_mem (s : State) : (s.advance).mem = s.mem := rfl
@[simp] theorem State.advance_disp (s : State) : (s.advance).disp = s.disp := rfl
@[simp] theorem State.advance_status (s : State) : (s.advance).status = s.status := rfl
@[simp] theorem State.advance_params (s : State) : (s.advance).params = s.params := rfl
@[simp] theorem State.advance_reg (s : State) (r : RegIdx) : (s.advance).reg r = s.reg r := rfl
@[simp] theorem State.advance_peek (s : State) (a : Nat) : (s.advance).peek a = s.peek a := rfl

/-! ## skipIf -/

@[simp] theorem State.skipIf_v (s : State) (c : Bool) : (s.skipIf c).v = s.v := by cases c <;> rfl
@[simp] theorem State.skipIf_i (s : State) (c : Bool) : (s.skipIf c).i = s.i := by cases c <;> rfl
@[simp] theorem State.skipIf_pc (s : State) (c : Bool) : (s.skipIf c).pc = if c then s.pc + 2#16 else s.pc := by cases c <;> rfl
@[simp] theorem State.skipIf_stack (s : State) (c : Bool) : (s.skipIf c).stack = s.stack := by cases c <;> rfl
@[simp] theorem State.skipIf_dt (s : State) (c : Bool) : (s.skipIf c).dt = s.dt := by cases c <;> rfl
@[simp] theorem State.skipIf_mem (s : State) (c : Bool) : (s.skipIf c).mem = s.mem := by cases c <;> rfl
@[simp] theorem State.skipIf_disp (s : State) (c : Bool) : (s.skipIf c).disp = s.disp := by cases c <;> rfl
@[simp] theorem State.skipIf_status (s : State) (c : Bool) : (s.skipIf c).status = s.status := by cases c <;> rfl
@[simp] theorem State.skipIf_params (s : State) (c : Bool) : (s.skipIf c).params = s.params := by cases c <;> rfl
@[simp] theorem State.skipIf_reg (s : State) (c : Bool) (r : RegIdx) : (s.skipIf c).reg r = s.reg r := by cases c <;> rfl
@[simp] theorem State.skipIf_peek (s : State) (c : Bool) (a : Nat) : (s.skipIf c).peek a = s.peek a := by cases c <;> rfl

/-- Reading a register after writing one: no register aliases another (10_state.md R20). -/
@[simp] theorem State.setReg_reg (s : State) (x : RegIdx) (b : Byte) (r : RegIdx) :
    (s.setReg x b).reg r = if r = x then b else s.reg r := by
  simp only [State.reg, State.setReg, Vector.getElem_set]
  by_cases h : r = x
  · simp [h]
  · have : x.toNat ≠ r.toNat := fun e => h (BitVec.eq_of_toNat_eq e.symm)
    simp [h, this]

/-! ## raise -/

@[simp] theorem raise_v (s : State) (w : Option Word) (e : StepError) : (raise s w e).v = s.v := rfl
@[simp] theorem raise_i (s : State) (w : Option Word) (e : StepError) : (raise s w e).i = s.i := rfl
@[simp] theorem raise_pc (s : State) (w : Option Word) (e : StepError) : (raise s w e).pc = s.pc := rfl
@[simp] theorem raise_stack (s : State) (w : Option Word) (e : StepError) : (raise s w e).stack = s.stack := rfl
@[simp] theorem raise_dt (s : State) (w : Option Word) (e : StepError) : (raise s w e).dt = s.dt := rfl
@[simp] theorem raise_mem (s : State) (w : Option Word) (e : StepError) : (raise s w e).mem = s.mem := rfl
@[simp] theorem raise_disp (s : State) (w : Option Word) (e : StepError) : (raise s w e).disp = s.disp := rfl
@[simp] theorem raise_status (s : State) (w : Option Word) (e : StepError) : (raise s w e).status = .halted { kind := e.kind, pc := some s.pc, word := w, addr := e.addr } := rfl
@[simp] theorem raise_params (s : State) (w : Option Word) (e : StepError) : (raise s w e).params = s.params := rfl
@[simp] theorem raise_reg (s : State) (w : Option Word) (e : StepError) (r : RegIdx) : (raise s w e).reg r = s.reg r := rfl
@[simp] theorem raise_peek (s : State) (w : Option Word) (e : StepError) (a : Nat) : (raise s w e).peek a = s.peek a := rfl

/-! ## writeCarry and writeCollision -/

@[simp] theorem writeCarry_v (s : State) (c : Bool) : (writeCarry s c).v = s.v.set vf.toNat (flagByte c) vf.isLt := rfl
@[simp] theorem writeCarry_i (s : State) (c : Bool) : (writeCarry s c).i = s.i := rfl
@[simp] theorem writeCarry_pc (s : State) (c : Bool) : (writeCarry s c).pc = s.pc := rfl
@[simp] theorem writeCarry_stack (s : State) (c : Bool) : (writeCarry s c).stack = s.stack := rfl
@[simp] theorem writeCarry_dt (s : State) (c : Bool) : (writeCarry s c).dt = s.dt := rfl
@[simp] theorem writeCarry_mem (s : State) (c : Bool) : (writeCarry s c).mem = s.mem := rfl
@[simp] theorem writeCarry_disp (s : State) (c : Bool) : (writeCarry s c).disp = s.disp := rfl
@[simp] theorem writeCarry_status (s : State) (c : Bool) : (writeCarry s c).status = s.status := rfl
@[simp] theorem writeCarry_params (s : State) (c : Bool) : (writeCarry s c).params = s.params := rfl
@[simp] theorem writeCarry_reg (s : State) (c : Bool) (r : RegIdx) :
    (writeCarry s c).reg r = if r = vf then flagByte c else s.reg r := State.setReg_reg s vf _ r
@[simp] theorem writeCarry_peek (s : State) (c : Bool) (a : Nat) : (writeCarry s c).peek a = s.peek a := rfl

/-- What the collision write does, in both modes (43_display.md R187). -/
@[simp] theorem writeCollision_reg (s : State) (c : Bool) (r : RegIdx) :
    (writeCollision s c).reg r = if s.params.collisionMode = .standard ∧ r = vf then flagByte c else s.reg r := by
  unfold writeCollision
  split <;> rename_i h <;> simp [h]
@[simp] theorem writeCollision_i (s : State) (c : Bool) : (writeCollision s c).i = s.i := by
  unfold writeCollision; split <;> rfl
@[simp] theorem writeCollision_pc (s : State) (c : Bool) : (writeCollision s c).pc = s.pc := by
  unfold writeCollision; split <;> rfl
@[simp] theorem writeCollision_stack (s : State) (c : Bool) : (writeCollision s c).stack = s.stack := by
  unfold writeCollision; split <;> rfl
@[simp] theorem writeCollision_dt (s : State) (c : Bool) : (writeCollision s c).dt = s.dt := by
  unfold writeCollision; split <;> rfl
@[simp] theorem writeCollision_mem (s : State) (c : Bool) : (writeCollision s c).mem = s.mem := by
  unfold writeCollision; split <;> rfl
@[simp] theorem writeCollision_disp (s : State) (c : Bool) : (writeCollision s c).disp = s.disp := by
  unfold writeCollision; split <;> rfl
@[simp] theorem writeCollision_status (s : State) (c : Bool) : (writeCollision s c).status = s.status := by
  unfold writeCollision; split <;> rfl
@[simp] theorem writeCollision_params (s : State) (c : Bool) : (writeCollision s c).params = s.params := by
  unfold writeCollision; split <;> rfl
@[simp] theorem writeCollision_peek (s : State) (c : Bool) (a : Nat) : (writeCollision s c).peek a = s.peek a := by
  unfold writeCollision; split <;> rfl

/-! ## memWrite -/

@[simp] theorem State.memWrite_v (s : State) (a : Nat) (b : Byte) : (s.memWrite a b).v = s.v := by
  unfold State.memWrite; split <;> rfl
@[simp] theorem State.memWrite_i (s : State) (a : Nat) (b : Byte) : (s.memWrite a b).i = s.i := by
  unfold State.memWrite; split <;> rfl
@[simp] theorem State.memWrite_pc (s : State) (a : Nat) (b : Byte) : (s.memWrite a b).pc = s.pc := by
  unfold State.memWrite; split <;> rfl
@[simp] theorem State.memWrite_stack (s : State) (a : Nat) (b : Byte) : (s.memWrite a b).stack = s.stack := by
  unfold State.memWrite; split <;> rfl
@[simp] theorem State.memWrite_dt (s : State) (a : Nat) (b : Byte) : (s.memWrite a b).dt = s.dt := by
  unfold State.memWrite; split <;> rfl
@[simp] theorem State.memWrite_mem (s : State) (a : Nat) (b : Byte) :
    (s.memWrite a b).mem = if a < 4096 then Memory.write (background s.params) s.mem a b else s.mem := by
  unfold State.memWrite; split <;> rfl
@[simp] theorem State.memWrite_disp (s : State) (a : Nat) (b : Byte) : (s.memWrite a b).disp = s.disp := by
  unfold State.memWrite; split <;> rfl
@[simp] theorem State.memWrite_status (s : State) (a : Nat) (b : Byte) : (s.memWrite a b).status = s.status := by
  unfold State.memWrite; split <;> rfl
@[simp] theorem State.memWrite_params (s : State) (a : Nat) (b : Byte) : (s.memWrite a b).params = s.params := by
  unfold State.memWrite; split <;> rfl
@[simp] theorem State.memWrite_reg (s : State) (a : Nat) (b : Byte) (r : RegIdx) : (s.memWrite a b).reg r = s.reg r := by
  unfold State.memWrite; split <;> rfl

/-! ## Reset -/

@[simp] theorem State.resetWith_v (c : Config) : (State.resetWith c).v = Vector.replicate 16 0x00#8 := rfl
@[simp] theorem State.resetWith_i (c : Config) : (State.resetWith c).i = 0x0000#16 := rfl
@[simp] theorem State.resetWith_pc (c : Config) : (State.resetWith c).pc = 0x0200#16 := rfl
@[simp] theorem State.resetWith_stack (c : Config) : (State.resetWith c).stack = [] := rfl
@[simp] theorem State.resetWith_dt (c : Config) : (State.resetWith c).dt = 0x00#8 := rfl
@[simp] theorem State.resetWith_mem (c : Config) : (State.resetWith c).mem = [] := rfl
@[simp] theorem State.resetWith_disp (c : Config) : (State.resetWith c).disp = Display.clear := rfl
@[simp] theorem State.resetWith_status (c : Config) : (State.resetWith c).status = .running := rfl
@[simp] theorem State.resetWith_params (c : Config) : (State.resetWith c).params = c := rfl

@[simp] theorem State.resetWith_reg (c : Config) (r : RegIdx) : (State.resetWith c).reg r = 0x00#8 := by
  simp [State.reg]

/-- The memory Reset leaves is the reset image (10_state.md R37). -/
@[simp] theorem State.resetWith_peek (c : Config) (a : Nat) : (State.resetWith c).peek a = background c a := rfl

end Sys2Proof.Machine
end

