-- ==== Sys2Proof/Laws/Memory.lean ====
section
/-! SUPPORT. The laws of memory: a read after a write, and every memory operation keeps the canonical form. -/

namespace Sys2Proof.Machine

theorem Memory.lookup_insert (m : Memory) (a : Nat) (v : Byte) (b : Nat) :
    Memory.lookup (Memory.insert m a v) b = if b = a then some v else Memory.lookup m b := by
  induction m with
  | nil => simp [Memory.insert, Memory.lookup, eq_comm]
  | cons c rest ih =>
    obtain ⟨k, w⟩ := c
    simp only [Memory.insert]
    split
    · simp [Memory.lookup, eq_comm]
    · split
      · rename_i h; subst h; by_cases hb : a = b
        · simp [Memory.lookup, hb]
        · simp [Memory.lookup, hb, Ne.symm hb]
      · simp only [Memory.lookup, ih]
        by_cases hk : k = b
        · have : b ≠ a := by omega
          simp [hk, this]
        · simp [hk]

theorem Memory.lookup_remove (m : Memory) (a b : Nat) :
    Memory.lookup (Memory.remove m a) b = if b = a then none else Memory.lookup m b := by
  induction m with
  | nil => simp [Memory.remove, Memory.lookup]
  | cons c rest ih =>
    obtain ⟨k, w⟩ := c
    simp only [Memory.remove]
    by_cases hk : k = a
    · by_cases hb : b = a
      · subst hb
        simpa [hk] using ih
      · have : ¬ a = b := fun e => hb e.symm
        simp [hk, ih, Memory.lookup, hb, this]
    · simp only [hk, if_false, Memory.lookup, ih]
      by_cases hkb : k = b
      · have : b ≠ a := by omega
        simp [hkb, this]
      · simp [hkb]

/-- A read after a write gives the byte written there, and the old byte elsewhere. -/
theorem Memory.read_write (bg : Nat → Byte) (m : Memory) (a : Nat) (v : Byte) (b : Nat) :
    Memory.read bg (Memory.write bg m a v) b = if b = a then v else Memory.read bg m b := by
  unfold Memory.read Memory.write
  by_cases h : v = bg a
  · simp only [h, if_true, Memory.lookup_remove]
    by_cases hb : b = a <;> simp [hb]
  · simp only [h, if_false, Memory.lookup_insert]
    by_cases hb : b = a <;> simp [hb]

theorem Memory.mem_insert {m : Memory} {a : Nat} {v : Byte} {c : Host.Cell} (h : c ∈ Memory.insert m a v) :
    c = (a, v) ∨ c ∈ m := by
  induction m with
  | nil => simpa [Memory.insert] using h
  | cons d rest ih =>
    obtain ⟨k, w⟩ := d
    simp only [Memory.insert] at h
    split at h
    · simpa using h
    · split at h
      · rcases List.mem_cons.1 h with h | h
        · exact .inl h
        · exact .inr (List.mem_cons_of_mem _ h)
      · rcases List.mem_cons.1 h with h | h
        · exact .inr (h ▸ List.mem_cons_self)
        · exact (ih h).imp_right (List.mem_cons_of_mem _)

theorem Memory.mem_remove {m : Memory} {a : Nat} {c : Host.Cell} (h : c ∈ Memory.remove m a) : c ∈ m := by
  induction m with
  | nil => exact absurd h (by simp [Memory.remove])
  | cons d rest ih =>
    obtain ⟨k, w⟩ := d
    simp only [Memory.remove] at h
    split at h
    · exact List.mem_cons_of_mem _ (ih h)
    · rcases List.mem_cons.1 h with h | h
      · exact h ▸ List.mem_cons_self
      · exact List.mem_cons_of_mem _ (ih h)

theorem Memory.sorted_insert {m : Memory} (a : Nat) (v : Byte) (h : m.Pairwise (fun c d => c.1 < d.1)) :
    (Memory.insert m a v).Pairwise (fun c d => c.1 < d.1) := by
  induction m with
  | nil => simp [Memory.insert]
  | cons d rest ih =>
    obtain ⟨k, w⟩ := d
    have hk := List.pairwise_cons.1 h
    simp only [Memory.insert]
    split
    · rename_i hak
      refine List.pairwise_cons.2 ⟨fun c hc => ?_, h⟩
      rcases List.mem_cons.1 hc with hc | hc
      · simpa [hc] using hak
      · exact lt_trans hak (hk.1 c hc)
    · split
      · rename_i _ hak
        exact List.pairwise_cons.2 ⟨fun c hc => hak ▸ hk.1 c hc, hk.2⟩
      · refine List.pairwise_cons.2 ⟨fun c hc => ?_, ih hk.2⟩
        rcases Memory.mem_insert hc with hc | hc
        · simp only [hc]; omega
        · exact hk.1 c hc

theorem Memory.sorted_remove {m : Memory} (a : Nat) (h : m.Pairwise (fun c d => c.1 < d.1)) :
    (Memory.remove m a).Pairwise (fun c d => c.1 < d.1) := by
  induction m with
  | nil => simp [Memory.remove]
  | cons d rest ih =>
    obtain ⟨k, w⟩ := d
    have hk := List.pairwise_cons.1 h
    simp only [Memory.remove]
    split
    · exact ih hk.2
    · exact List.pairwise_cons.2 ⟨fun c hc => hk.1 c (Memory.mem_remove hc), ih hk.2⟩

/-- A write inside the address space keeps the canonical form. -/
theorem Memory.wf_write {bg : Nat → Byte} {m : Memory} {a : Nat} (v : Byte) (ha : a < 4096) (h : Memory.wf bg m) :
    Memory.wf bg (Memory.write bg m a v) := by
  unfold Memory.write
  split
  · exact ⟨Memory.sorted_remove a h.1, fun c hc => h.2 c (Memory.mem_remove hc)⟩
  · rename_i hv
    refine ⟨Memory.sorted_insert a v h.1, fun c hc => ?_⟩
    rcases Memory.mem_insert hc with hc | hc
    · subst hc; exact ⟨ha, hv⟩
    · exact h.2 c hc

/-- Reset's memory has the canonical form. -/
theorem State.resetWith_wf (c : Config) : Memory.wf (background c) (State.resetWith c).mem := by
  simp [Memory.wf]

/-- MemWrite keeps the canonical form. -/
theorem State.memWrite_wf {s : State} (a : Nat) (v : Byte) (h : Memory.wf (background s.params) s.mem) :
    Memory.wf (background (s.memWrite a v).params) (s.memWrite a v).mem := by
  simp only [State.memWrite_params, State.memWrite_mem]
  split
  · exact Memory.wf_write v ‹_› h
  · exact h

theorem State.writeBytes_wf {s : State} (base : Nat) (bytes : List Byte) (h : Memory.wf (background s.params) s.mem) :
    Memory.wf (background (s.writeBytes base bytes).params) (s.writeBytes base bytes).mem := by
  induction bytes generalizing s base with
  | nil => exact h
  | cons b rest ih => exact ih (base + 1) (State.memWrite_wf base b h)

/-- A byte read after MemWrite (20_memory.md R53). -/
theorem State.memWrite_peek (s : State) (a : Nat) (v : Byte) (b : Nat) :
    (s.memWrite a v).peek b = if a < 4096 ∧ b = a then v else s.peek b := by
  unfold State.peek
  rw [State.memWrite_mem, State.memWrite_params]
  by_cases ha : a < 4096
  · simp [ha, Memory.read_write]
  · simp [ha]

/-- A byte read after a run of writes inside the address space. -/
theorem State.writeBytes_peek (s : State) (base : Nat) (bytes : List Byte) (h : base + bytes.length ≤ 4096) (a : Nat) :
    (s.writeBytes base bytes).peek a =
      if base ≤ a ∧ a < base + bytes.length then bytes.getD (a - base) 0 else s.peek a := by
  induction bytes generalizing s base with
  | nil => simp only [State.writeBytes, List.length_nil]; rw [if_neg (by omega)]
  | cons b rest ih =>
    simp only [List.length_cons] at h ⊢
    rw [State.writeBytes, ih _ _ (by omega), State.memWrite_peek]
    by_cases hab : a = base
    · subst hab
      rw [if_neg (by omega), if_pos (by omega), if_pos (by omega)]
      simp
    · by_cases hr : base + 1 ≤ a ∧ a < base + 1 + rest.length
      · rw [if_pos hr, if_pos (by omega), show a - base = (a - (base + 1)) + 1 by omega, List.getD_cons_succ]
      · rw [if_neg hr, if_neg (by omega), if_neg (by omega)]

/-- Writing bytes changes nothing but memory. -/
theorem State.writeBytes_keeps (s : State) (base : Nat) (bytes : List Byte) :
    ∃ m, s.writeBytes base bytes = { s with mem := m } := by
  induction bytes generalizing s base with
  | nil => exact ⟨s.mem, rfl⟩
  | cons b rest ih =>
    obtain ⟨m, hm⟩ := ih (s.memWrite base b) (base + 1)
    refine ⟨m, ?_⟩
    rw [State.writeBytes, hm]
    unfold State.memWrite
    split <;> rfl

end Sys2Proof.Machine
end

