-- ==== Sys2Proof/Laws/Ops.lean ====
section
/-! SUPPORT. One lemma per shared operation that says everything it can do: the fetch, the sprite rows, the stack, running one
instruction, the adder. -/

namespace Sys2Proof.Machine

/-! ## Reading memory -/

theorem memRead1_valid (s : State) {a : Nat} (h : a < 4096) : memRead1 s a = .ok (s.peek a) := by
  simp [memRead1, Nat.not_le.2 h]

theorem memRead1_invalid (s : State) {a : Nat} (h : 4096 ≤ a) :
    memRead1 s a = .error ⟨.memoryOutOfBounds, some a⟩ := by
  simp [memRead1, h]

theorem memRead2_valid (s : State) {a : Nat} (h : a + 1 < 4096) : memRead2 s a = .ok (s.wordAt a) := by
  simp [memRead2, memRead1_valid s h, memRead1_valid s (show a < 4096 by omega), State.wordAt]

/-- The two ways a fetch goes (20_memory.md R55). -/
theorem fetch_valid (s : State) (h : s.pc.toNat + 1 < 4096) : fetch s = .ok (s.wordAt s.pc.toNat) := by
  simp [fetch, Nat.not_le.2 h, memRead2_valid s h]

theorem fetch_invalid (s : State) (h : 4096 ≤ s.pc.toNat + 1) :
    fetch s = .error ⟨.memoryOutOfBounds, some (max s.pc.toNat 4096)⟩ := by
  simp [fetch, h]

/-- The three ways fetch, decode and dispatch go, in their order (60_exceptions.md R216). -/
theorem fetchInstr_invalid (s : State) (h : 4096 ≤ s.pc.toNat + 1) :
    fetchInstr s = .error (none, ⟨.memoryOutOfBounds, some (max s.pc.toNat 4096)⟩) := by
  simp [fetchInstr, fetch_invalid s h]

theorem fetchInstr_unimplemented (s : State) (h : s.pc.toNat + 1 < 4096) (hd : decodeWord (s.wordAt s.pc.toNat) = none) :
    fetchInstr s = .error (some (s.wordAt s.pc.toNat), ⟨.unimplementedOpcode, none⟩) := by
  simp [fetchInstr, fetch_valid s h, hd]

theorem fetchInstr_instr (s : State) {i : Instr} (h : s.pc.toNat + 1 < 4096)
    (hd : decodeWord (s.wordAt s.pc.toNat) = some i) : fetchInstr s = .ok i := by
  simp [fetchInstr, fetch_valid s h, hd]

/-- The two ways the sprite read goes (20_memory.md R56). -/
theorem spriteRows_invalid (s : State) (n : Nibble) (h : 0 < n.toNat ∧ 4096 ≤ s.i.toNat + n.toNat - 1) :
    spriteRows s n = .error ⟨.memoryOutOfBounds, some (max s.i.toNat 4096)⟩ := by
  simp [spriteRows, h]

theorem spriteRows_valid (s : State) (n : Nibble) (h : ¬(0 < n.toNat ∧ 4096 ≤ s.i.toNat + n.toNat - 1)) :
    spriteRows s n = .ok ((List.range n.toNat).map fun r => s.peek (s.i.toNat + r)) := by
  simp only [spriteRows, h, if_false]

/-- Row r of the sprite is the byte at I + r (43_display.md R181). -/
theorem spriteRows_getD (s : State) (n r : Nat) (h : r < n) :
    ((List.range n).map fun r => s.peek (s.i.toNat + r)).getD r 0 = s.peek (s.i.toNat + r) := by
  simp [List.getD_eq_getElem?_getD, h]

/-! ## The stack -/

theorem pushPc_full (s : State) (h : s.stack.length = s.params.stackDepth) :
    pushPc s = .error ⟨.stackOverflow, none⟩ := by
  simp [pushPc, h]

theorem pushPc_room (s : State) (h : s.stack.length ≠ s.params.stackDepth) :
    pushPc s = .ok (s.setStack (s.pc :: s.stack)) := by
  simp [pushPc, h]

theorem popPc_empty (s : State) (h : s.stack = []) : popPc s = .error ⟨.stackUnderflow, none⟩ := by
  simp [popPc, h]

theorem popPc_cons (s : State) {top : Word} {rest : List Word} (h : s.stack = top :: rest) :
    popPc s = .ok ((s.setStack rest).setPc top) := by
  simp [popPc, h]

/-! ## Running one instruction -/

theorem execute_ok {i : Instr} {s t : State} {body : State → Except StepError State} (h : body s.advance = .ok t) :
    execute i s body = .next t := by
  simp [execute, h]

theorem execute_error {i : Instr} {s : State} {e : StepError} {body : State → Except StepError State}
    (h : body s.advance = .error e) : execute i s body = .next (raise s (some (encode i)) e) := by
  simp [execute, h]

/-- Everything `execute` can do: the body's state, or the fatal error on the state before the fetch. -/
theorem execute_cases (i : Instr) (s : State) (body : State → Except StepError State) :
    (∃ t, body s.advance = .ok t ∧ execute i s body = .next t) ∨
      (∃ e, body s.advance = .error e ∧ execute i s body = .next (raise s (some (encode i)) e)) := by
  cases h : body s.advance with
  | ok t => exact .inl ⟨t, rfl, execute_ok h⟩
  | error e => exact .inr ⟨e, rfl, execute_error h⟩

/-! ## The adder -/

/-- ADD is addition of 8-bit words (41_alu.md R144). -/
theorem aluAdd_eq (a b : Byte) : aluAdd a b = a + b := by
  apply BitVec.eq_of_toNat_eq
  simp [aluAdd, aluSum]

theorem aluAdd_toNat (a b : Byte) : (aluAdd a b).toNat = (a.toNat + b.toNat) % 256 := by
  simp [aluAdd, aluSum]

/-- `zext_16(NNN)` keeps the number (30_encoding.md R83). -/
@[simp] theorem zext16_toNat (nnn : Addr12) : (zext16 nnn).toNat = nnn.toNat := by
  have := nnn.isLt
  simp only [zext16, BitVec.toNat_setWidth]
  omega

end Sys2Proof.Machine
end

