-- ==== Sys2Proof/Laws/PerInstr.lean ====
section
/-! SUPPORT. Statements about every instruction as syntax, one lemma per constructor. ListingForm: the line that spec
30_encoding.md R94 writes for an instruction is well formed, and stands for that instruction. -/

namespace Sys2Proof.Laws.ListingForm

open Sys2Proof Sys2Proof.Machine

def Statement (i : Instr) : Prop := i.line.wf = true ∧ instrOfLine i.line = some i

theorem checkReg_ok (x : RegIdx) : checkReg x.toNat = none := by simp [checkReg, x.isLt]

theorem checkImm_ok (bits : Nat) (k : BitVec bits) : checkImm bits k.toNat = none := by simp [checkImm, k.isLt]

theorem cls : Statement .cls := ⟨rfl, rfl⟩
theorem ret : Statement .ret := ⟨rfl, rfl⟩
theorem jp (nnn : Addr12) : Statement (.jp nnn) := by
  simp [Statement, Line.wf, Line.check, Instr.line, instrOfLine, checkImm_ok]
theorem call (nnn : Addr12) : Statement (.call nnn) := by
  simp [Statement, Line.wf, Line.check, Instr.line, instrOfLine, checkImm_ok]
theorem seImm (x : RegIdx) (nn : Byte) : Statement (.seImm x nn) := by
  simp [Statement, Line.wf, Line.check, Instr.line, instrOfLine, checkReg_ok, checkImm_ok]
theorem sneImm (x : RegIdx) (nn : Byte) : Statement (.sneImm x nn) := by
  simp [Statement, Line.wf, Line.check, Instr.line, instrOfLine, checkReg_ok, checkImm_ok]
theorem seReg (x y : RegIdx) : Statement (.seReg x y) := by
  simp [Statement, Line.wf, Line.check, Instr.line, instrOfLine, checkReg_ok]
theorem ldImm (x : RegIdx) (nn : Byte) : Statement (.ldImm x nn) := by
  simp [Statement, Line.wf, Line.check, Instr.line, instrOfLine, checkReg_ok, checkImm_ok]
theorem addImm (x : RegIdx) (nn : Byte) : Statement (.addImm x nn) := by
  simp [Statement, Line.wf, Line.check, Instr.line, instrOfLine, checkReg_ok, checkImm_ok]
theorem ldReg (x y : RegIdx) : Statement (.ldReg x y) := by
  simp [Statement, Line.wf, Line.check, Instr.line, instrOfLine, checkReg_ok]
theorem orReg (x y : RegIdx) : Statement (.orReg x y) := by
  simp [Statement, Line.wf, Line.check, Instr.line, instrOfLine, checkReg_ok]
theorem andReg (x y : RegIdx) : Statement (.andReg x y) := by
  simp [Statement, Line.wf, Line.check, Instr.line, instrOfLine, checkReg_ok]
theorem xorReg (x y : RegIdx) : Statement (.xorReg x y) := by
  simp [Statement, Line.wf, Line.check, Instr.line, instrOfLine, checkReg_ok]
theorem addReg (x y : RegIdx) : Statement (.addReg x y) := by
  simp [Statement, Line.wf, Line.check, Instr.line, instrOfLine, checkReg_ok]
theorem sneReg (x y : RegIdx) : Statement (.sneReg x y) := by
  simp [Statement, Line.wf, Line.check, Instr.line, instrOfLine, checkReg_ok]
theorem ldI (nnn : Addr12) : Statement (.ldI nnn) := by
  simp [Statement, Line.wf, Line.check, Instr.line, instrOfLine, checkImm_ok]
theorem drw (x y : RegIdx) (n : Nibble) : Statement (.drw x y n) := by
  simp [Statement, Line.wf, Line.check, Instr.line, instrOfLine, checkReg_ok, checkImm_ok]

end Sys2Proof.Laws.ListingForm
end

