-- ==== Sys2Proof/Laws/Screen.lean ====
section
/-! SUPPORT. What drawing a sprite does to each pixel and when it collides, in closed form: the loops of spec 43_display.md R183
visit each target once (R184), so the order does not matter. -/

namespace Sys2Proof.Machine

@[simp] theorem Display.pixel_clear (x y : Nat) : Display.pixel Display.clear x y = false := by
  unfold Display.pixel Display.clear
  split <;> simp

theorem Display.pixel_offGrid (d : Display) {x y : Nat} (h : ¬(x < 64 ∧ y < 32)) : Display.pixel d x y = false := by
  simp [Display.pixel, h]

theorem Display.pixel_toggle (d : Display) (x y px py : Nat) :
    Display.pixel (Display.toggle d x y) px py =
      (Display.pixel d px py ^^ decide (px < 64 ∧ py < 32 ∧ px = x ∧ py = y)) := by
  unfold Display.toggle
  by_cases h : x < 64 ∧ y < 32
  · simp only [h, and_self, dif_pos]
    unfold Display.pixel
    by_cases hp : px < 64 ∧ py < 32
    · simp only [hp, and_self, dif_pos, Vector.getElem_set, true_and]
      by_cases hy : y = py
      · subst hy
        by_cases hx : x = px
        · subst hx; simp
        · have : ¬ px = x := fun e => hx e.symm
          simp [hx, this]
      · have : ¬ py = y := fun e => hy e.symm
        simp [hy, this]
    · have : ¬(px < 64 ∧ py < 32 ∧ px = x ∧ py = y) := fun ⟨a, b, _⟩ => hp ⟨a, b⟩
      simp [hp, this]
  · have : ¬(px < 64 ∧ py < 32 ∧ px = x ∧ py = y) := by
      rintro ⟨a, b, rfl, rfl⟩; exact h ⟨a, b⟩
    rw [dif_neg h, decide_eq_false this, Bool.xor_false]

theorem drawBit_pixel (x y : Nat) (bit : Bool) (acc : Display × Bool) (px py : Nat) :
    Display.pixel (drawBit x y bit acc).1 px py =
      (Display.pixel acc.1 px py ^^ (bit && decide (px < 64 ∧ py < 32 ∧ px = x ∧ py = y))) := by
  unfold drawBit
  split
  · rename_i h
    have : ¬(px < 64 ∧ py < 32 ∧ px = x ∧ py = y) := by rintro ⟨a, b, rfl, rfl⟩; omega
    simp [this]
  · cases bit <;> simp [Display.pixel_toggle]

theorem drawBit_collided (x y : Nat) (bit : Bool) (acc : Display × Bool) :
    (drawBit x y bit acc).2 = (acc.2 || (bit && decide (x < 64 ∧ y < 32) && Display.pixel acc.1 x y)) := by
  unfold drawBit
  split
  · rename_i h
    have : ¬(x < 64 ∧ y < 32) := by omega
    simp [this]
  · rename_i h
    have : x < 64 ∧ y < 32 := by omega
    cases bit <;> simp [this]

/-- The first `k` bits of a row, leftmost first: the loop body of `drawRow`. -/
def drawBits (x0 py : Nat) (row : Byte) (k : Nat) (acc : Display × Bool) : Display × Bool :=
  (List.range k).foldl (fun acc c => drawBit (x0 + c) py (spriteBit row c) acc) acc

theorem drawBits_succ (x0 py : Nat) (row : Byte) (k : Nat) (acc : Display × Bool) :
    drawBits x0 py row (k + 1) acc = drawBit (x0 + k) py (spriteBit row k) (drawBits x0 py row k acc) := by
  simp [drawBits, List.range_succ, List.foldl_append]

theorem drawBits_pixel (x0 y : Nat) (row : Byte) (k : Nat) (acc : Display × Bool) (px py : Nat) :
    Display.pixel (drawBits x0 y row k acc).1 px py =
      (Display.pixel acc.1 px py ^^
        (decide (px < 64 ∧ py < 32 ∧ py = y ∧ x0 ≤ px ∧ px < x0 + k) && spriteBit row (px - x0))) := by
  induction k with
  | zero =>
    have : ¬(px < 64 ∧ py < 32 ∧ py = y ∧ x0 ≤ px ∧ px < x0 + 0) := by omega
    rw [decide_eq_false this]; simp [drawBits]
  | succ k ih =>
    rw [drawBits_succ, drawBit_pixel, ih, Bool.xor_assoc]
    congr 1
    by_cases h : px = x0 + k
    · have h1 : ¬(px < 64 ∧ py < 32 ∧ py = y ∧ x0 ≤ px ∧ px < x0 + k) := by omega
      have h2 : px - x0 = k := by omega
      rw [decide_eq_false h1, Bool.false_and, Bool.false_xor, h2, Bool.and_comm]
      congr 1
      exact decide_eq_decide.2 (by omega)
    · have h1 : ¬(px < 64 ∧ py < 32 ∧ px = x0 + k ∧ py = y) := by omega
      rw [decide_eq_false h1, Bool.and_false, Bool.xor_false]
      congr 1
      exact decide_eq_decide.2 (by omega)

theorem drawBits_collided (x0 y : Nat) (row : Byte) (k : Nat) (acc : Display × Bool) :
    (drawBits x0 y row k acc).2 = true ↔
      acc.2 = true ∨ ∃ px, px < 64 ∧ y < 32 ∧ x0 ≤ px ∧ px < x0 + k ∧ spriteBit row (px - x0) = true ∧
        Display.pixel acc.1 px y = true := by
  induction k with
  | zero =>
    have : ¬∃ px, px < 64 ∧ y < 32 ∧ x0 ≤ px ∧ px < x0 + 0 ∧ spriteBit row (px - x0) = true ∧
        Display.pixel acc.1 px y = true := by rintro ⟨px, _, _, _, _, _⟩; omega
    simp only [this, or_false]; simp [drawBits]
  | succ k ih =>
    rw [drawBits_succ, drawBit_collided, Bool.or_eq_true, ih, or_assoc]
    refine or_congr_right ?_
    simp only [Bool.and_eq_true, decide_eq_true_eq, drawBits_pixel]
    have h1 : ¬(x0 + k < 64 ∧ y < 32 ∧ True ∧ x0 ≤ x0 + k ∧ x0 + k < x0 + k) := by omega
    rw [decide_eq_false h1, Bool.false_and, Bool.xor_false]
    constructor
    · rintro (⟨px, a, b, c, d, e, f⟩ | ⟨⟨a, b, c⟩, d⟩)
      · exact ⟨px, a, b, c, by omega, e, f⟩
      · exact ⟨x0 + k, b, c, by omega, by omega, by simpa using a, d⟩
    · rintro ⟨px, a, b, c, d, e, f⟩
      by_cases h : px = x0 + k
      · subst h; exact .inr ⟨⟨by simpa using e, a, b⟩, f⟩
      · exact .inl ⟨px, a, b, c, by omega, e, f⟩

theorem drawRows_pixel (x0 y0 : Nat) (rows : List Byte) (acc : Display × Bool) (px py : Nat) :
    Display.pixel (drawRows x0 y0 rows acc).1 px py =
      (Display.pixel acc.1 px py ^^
        (decide (px < 64 ∧ py < 32 ∧ x0 ≤ px ∧ px < x0 + 8 ∧ y0 ≤ py ∧ py < y0 + rows.length) &&
          spriteBit (rows.getD (py - y0) 0) (px - x0))) := by
  induction rows generalizing y0 acc with
  | nil =>
    have : ¬(px < 64 ∧ py < 32 ∧ x0 ≤ px ∧ px < x0 + 8 ∧ y0 ≤ py ∧ py < y0 + ([] : List Byte).length) := by
      simp only [List.length_nil]; omega
    rw [decide_eq_false this]; simp [drawRows]
  | cons row rest ih =>
    rw [drawRows, ih, show drawRow x0 y0 row acc = drawBits x0 y0 row 8 acc from rfl, drawBits_pixel, Bool.xor_assoc]
    congr 1
    simp only [List.length_cons]
    by_cases h : py = y0
    · have h1 : ¬(px < 64 ∧ py < 32 ∧ x0 ≤ px ∧ px < x0 + 8 ∧ y0 + 1 ≤ py ∧ py < y0 + 1 + rest.length) := by omega
      rw [decide_eq_false h1, Bool.false_and, Bool.xor_false, show py - y0 = 0 by omega, List.getD_cons_zero]
      congr 1
      exact decide_eq_decide.2 (by omega)
    · have h1 : ¬(px < 64 ∧ py < 32 ∧ py = y0 ∧ x0 ≤ px ∧ px < x0 + 8) := by omega
      rw [decide_eq_false h1, Bool.false_and, Bool.false_xor]
      by_cases h2 : y0 + 1 ≤ py
      · rw [show py - y0 = (py - (y0 + 1)) + 1 by omega, List.getD_cons_succ]
        congr 1
        exact decide_eq_decide.2 (by omega)
      · rw [decide_eq_false (by omega), decide_eq_false (by omega)]
        simp

theorem drawRows_collided (x0 y0 : Nat) (rows : List Byte) (acc : Display × Bool) :
    (drawRows x0 y0 rows acc).2 = true ↔
      acc.2 = true ∨ ∃ px py, px < 64 ∧ py < 32 ∧ x0 ≤ px ∧ px < x0 + 8 ∧ y0 ≤ py ∧ py < y0 + rows.length ∧
        spriteBit (rows.getD (py - y0) 0) (px - x0) = true ∧ Display.pixel acc.1 px py = true := by
  induction rows generalizing y0 acc with
  | nil =>
    have : ¬∃ px py, px < 64 ∧ py < 32 ∧ x0 ≤ px ∧ px < x0 + 8 ∧ y0 ≤ py ∧ py < y0 + ([] : List Byte).length ∧
        spriteBit (([] : List Byte).getD (py - y0) 0) (px - x0) = true ∧ Display.pixel acc.1 px py = true := by
      rintro ⟨px, py, _, _, _, _, a, b, _⟩; simp only [List.length_nil] at b; omega
    simp only [this, or_false, drawRows]
  | cons row rest ih =>
    rw [drawRows, ih, show drawRow x0 y0 row acc = drawBits x0 y0 row 8 acc from rfl, drawBits_collided, or_assoc]
    refine or_congr_right ?_
    simp only [drawBits_pixel, List.length_cons]
    constructor
    · rintro (⟨px, a, b, c, d, e, f⟩ | ⟨px, py, a, b, c, d, e, f, g, k⟩)
      · exact ⟨px, y0, a, b, c, d, le_refl _, by omega, by simpa using e, f⟩
      · refine ⟨px, py, a, b, c, d, by omega, by omega, ?_, ?_⟩
        · rwa [show py - y0 = (py - (y0 + 1)) + 1 by omega, List.getD_cons_succ]
        · rw [decide_eq_false (by omega), Bool.false_and, Bool.xor_false] at k
          exact k
    · rintro ⟨px, py, a, b, c, d, e, f, g, k⟩
      by_cases h : py = y0
      · subst h; exact .inl ⟨px, a, b, c, d, by simpa using g, k⟩
      · refine .inr ⟨px, py, a, b, c, d, by omega, by omega, ?_, ?_⟩
        · rwa [show py - y0 = (py - (y0 + 1)) + 1 by omega, List.getD_cons_succ] at g
        · rw [decide_eq_false (by omega), Bool.false_and, Bool.xor_false]
          exact k

/-- Every pixel after a draw: toggled exactly where an on-grid sprite bit is 1 (43_display.md R183, R185). -/
theorem drawSprite_pixel (x0 y0 : Nat) (rows : List Byte) (d : Display) (px py : Nat) :
    Display.pixel (drawSprite x0 y0 rows d).1 px py =
      (Display.pixel d px py ^^
        (decide (px < 64 ∧ py < 32 ∧ x0 ≤ px ∧ px < x0 + 8 ∧ y0 ≤ py ∧ py < y0 + rows.length) &&
          spriteBit (rows.getD (py - y0) 0) (px - x0))) :=
  drawRows_pixel x0 y0 rows (d, false) px py

/-- A draw collides exactly if an on-grid sprite bit of 1 meets a pixel that was on (43_display.md R187). -/
theorem drawSprite_collided (x0 y0 : Nat) (rows : List Byte) (d : Display) :
    (drawSprite x0 y0 rows d).2 = true ↔
      ∃ px py, px < 64 ∧ py < 32 ∧ x0 ≤ px ∧ px < x0 + 8 ∧ y0 ≤ py ∧ py < y0 + rows.length ∧
        spriteBit (rows.getD (py - y0) 0) (px - x0) = true ∧ Display.pixel d px py = true := by
  have := drawRows_collided x0 y0 rows (d, false)
  simpa [drawSprite] using this

end Sys2Proof.Machine
end

