-- ==== Sys2Proof/Laws/Step.lean ====
section
/-! SUPPORT. What a step can do, said once: nothing, a fatal error of the fetch or the dispatch, or one instruction. -/

namespace Sys2Proof.Machine

theorem step_notRunning {s : State} (h : s.status ≠ .running) : step s = .next s := by
  unfold step
  cases hs : s.status with
  | running => exact absurd hs h
  | halted r => rfl
  | stopped => rfl

theorem step_error {s : State} {w : Option Word} {e : StepError} (h : s.status = .running)
    (hf : fetchInstr s = .error (w, e)) : step s = .next (raise s w e) := by
  simp [step, h, hf]

theorem step_instr {s : State} {i : Instr} (h : s.status = .running) (hf : fetchInstr s = .ok i) :
    step s = exec i s := by
  simp [step, h, hf]

/-- Everything a step can do. -/
theorem step_cases (s : State) :
    (s.status ≠ .running ∧ step s = .next s) ∨
    (s.status = .running ∧ 4096 ≤ s.pc.toNat + 1 ∧
      step s = .next (raise s none ⟨.memoryOutOfBounds, some (max s.pc.toNat 4096)⟩)) ∨
    (s.status = .running ∧ s.pc.toNat + 1 < 4096 ∧ decodeWord (s.wordAt s.pc.toNat) = none ∧
      step s = .next (raise s (some (s.wordAt s.pc.toNat)) ⟨.unimplementedOpcode, none⟩)) ∨
    (∃ i, s.status = .running ∧ s.pc.toNat + 1 < 4096 ∧ decodeWord (s.wordAt s.pc.toNat) = some i ∧ step s = exec i s) := by
  by_cases hr : s.status = .running
  · by_cases hp : 4096 ≤ s.pc.toNat + 1
    · exact .inr (.inl ⟨hr, hp, step_error hr (fetchInstr_invalid s hp)⟩)
    · have hp' : s.pc.toNat + 1 < 4096 := by omega
      cases hd : decodeWord (s.wordAt s.pc.toNat) with
      | none => exact .inr (.inr (.inl ⟨hr, hp', rfl, step_error hr (fetchInstr_unimplemented s hp' hd)⟩))
      | some i => exact .inr (.inr (.inr ⟨i, hr, hp', rfl, step_instr hr (fetchInstr_instr s hp' hd)⟩))
  · exact .inl ⟨hr, step_notRunning hr⟩

theorem steps_succ {s t : State} (k : Nat) (h : step s = .next t) : steps (k + 1) s = steps k t := by
  simp [steps, h]

end Sys2Proof.Machine
end

