-- ==== Sys2Proof/Tests/Slice0.lean ====
section
/-! SUPPORT. Tests: ill-formed lines refused, one word per row of the opcode table decoded, one or two steps per instruction, the
errors and the boundary operations, each with the value spec 95_test_vectors.md or a rule's example gives; and one witness per
statement that has hypotheses. -/

namespace Sys2Proof.Tests

open Sys2Proof Sys2Proof.Machine

/-! ## Helpers -/

/-- The reset state (95_test_vectors.md, Conventions) with PC at `pc` and the two bytes of a word there. -/
def start (pc : Word) (hi lo : Byte) : State :=
  ((State.reset.setPc pc).memWrite pc.toNat hi).memWrite (pc.toNat + 1) lo

/-- `start` in ALU_MODE = source_faithful. -/
def startSf (pc : Word) (hi lo : Byte) : State :=
  { start pc hi lo with params := { defaultConfig with aluMode := .sourceFaithful } }

/-- `start` in COLLISION_MODE = none. -/
def startNone (pc : Word) (hi lo : Byte) : State :=
  { start pc hi lo with params := { defaultConfig with collisionMode := .none } }

/-- A stack of `n` entries 0x202. -/
def deep (n : Nat) : List Word := List.replicate n 0x202#16

/-- The next state of an outcome, `d` where there is none. -/
def nextOf (r : Result) (d : State) : State :=
  match r with
  | .next t => t
  | .fault _ => d
  | .refused _ => d

/-- Whether an outcome is a next state. -/
def isNext (r : Result) : Bool :=
  match r with
  | .next _ => true
  | .fault _ => false
  | .refused _ => false

theorem eq_nextOf {r : Result} {d : State} (h : isNext r = true) : r = .next (nextOf r d) := by
  cases r with
  | next t => rfl
  | fault f => cases h
  | refused f => cases h

/-- The state after one step, and after two. -/
def after (s : State) : State := nextOf (step s) s
def after2 (s : State) : State := after (after s)

/-- The outcome of a sequence of boundary operations. -/
def block (r : Host.Outcome Boundary Fault Refusal) : Option Boundary :=
  match r with
  | .next b => some b
  | .fault _ => none
  | .refused _ => none

/-- A block at reset, LoadRom still to come. -/
def fresh : Boundary := { block := State.reset, loadPermitted := true }

/-! ## WellFormed: an ill-formed line for each check (30_encoding.md R84, R94, R95) -/

theorem test_wf_no_such_form : (Line.stmt .JP [.v 1]).check = some .noSuchForm := by decide
theorem test_wf_extra_operand : (Line.stmt .CLS [.imm 0]).check = some .noSuchForm := by decide
theorem test_wf_register : (Line.stmt .LD [.v 16, .v 0]).check = some (.registerIndex 16) := by decide
theorem test_wf_second_register : (Line.stmt .DRW [.v 0, .v 16, .imm 1]).check = some (.registerIndex 16) := by decide
theorem test_wf_imm4 : (Line.stmt .DRW [.v 0, .v 1, .imm 16]).check = some (.immediateTooWide 4 16) := by decide
theorem test_wf_imm8 : (Line.stmt .ADD [.v 0, .imm 256]).check = some (.immediateTooWide 8 256) := by decide
theorem test_wf_imm12 : (Line.stmt .JP [.imm 4096]).check = some (.immediateTooWide 12 4096) := by decide
theorem test_wf_imm16 : (Line.dw 65536).check = some (.immediateTooWide 16 65536) := by decide
theorem test_wf_accepts : (Line.stmt .DRW [.v 15, .v 0, .imm 15]).wf = true := by decide

/-! ## Decode: bytes written out from 30_encoding.md R88, one per row -/

theorem test_decode_cls : decode [0b00000000, 0b11100000] = .ok (.cls, []) := by decide
theorem test_decode_ret : decode [0b00000000, 0b11101110] = .ok (.ret, []) := by decide
theorem test_decode_jp : decode [0b00010010, 0b00110100] = .ok (.jp 0x234#12, []) := by decide
theorem test_decode_call : decode [0b00100011, 0b00000000] = .ok (.call 0x300#12, []) := by decide
theorem test_decode_seImm : decode [0b00110011, 0b01000010] = .ok (.seImm 0x3#4 0x42#8, []) := by decide
theorem test_decode_sneImm : decode [0b01000011, 0b01000010] = .ok (.sneImm 0x3#4 0x42#8, []) := by decide
theorem test_decode_seReg : decode [0b01010001, 0b00100000] = .ok (.seReg 0x1#4 0x2#4, []) := by decide
theorem test_decode_ldImm : decode [0b01101010, 0b00101111] = .ok (.ldImm 0xA#4 0x2F#8, []) := by decide
theorem test_decode_addImm : decode [0b01110000, 0b00100000] = .ok (.addImm 0x0#4 0x20#8, []) := by decide
theorem test_decode_ldReg : decode [0b10000001, 0b01010000] = .ok (.ldReg 0x1#4 0x5#4, []) := by decide
theorem test_decode_orReg : decode [0b10000001, 0b00100001] = .ok (.orReg 0x1#4 0x2#4, []) := by decide
theorem test_decode_andReg : decode [0b10000001, 0b00100010] = .ok (.andReg 0x1#4 0x2#4, []) := by decide
theorem test_decode_xorReg : decode [0b10000001, 0b00100011] = .ok (.xorReg 0x1#4 0x2#4, []) := by decide
theorem test_decode_addReg : decode [0b10000001, 0b00100100] = .ok (.addReg 0x1#4 0x2#4, []) := by decide
theorem test_decode_sneReg : decode [0b10011010, 0b10110000] = .ok (.sneReg 0xA#4 0xB#4, []) := by decide
theorem test_decode_ldI : decode [0b10100000, 0b00001010] = .ok (.ldI 0x00A#12, []) := by decide
theorem test_decode_drw : decode [0b11010000, 0b00010101] = .ok (.drw 0x0#4 0x1#4 0x5#4, []) := by decide

/-- V-E1 and V-E5. -/
theorem test_fields : decodeFields 0xD12F#16 = ⟨0xD#4, 0x1#4, 0x2#4, 0xF#4, 0x2F#8, 0x12F#12, 0xD12F#16⟩ ∧
    decodeFields 0x8AB4#16 = ⟨0x8#4, 0xA#4, 0xB#4, 0x4#4, 0xB4#8, 0xAB4#12, 0x8AB4#16⟩ := by decide

/-- V-X3 to V-X13: words of no row. -/
theorem test_decode_none : ([0x00E1, 0x0123, 0x0000, 0x5121, 0x9ABF, 0x8125, 0x8126, 0x8127, 0x812E, 0xB200, 0xC0FF,
    0xE09E, 0xE0A1, 0xF007, 0xF015, 0xF065, 0xFFFF] : List Word).all (fun w => (decodeWord w).isNone) = true := by decide

theorem test_decode_truncated : decode [0x00#8] = .error .truncated := by decide

/-- The table's own words, numbered as it numbers them: DRW, and 5XY0 with a reserved low nibble. -/
theorem test_decodeTableWord : decodeTableWord 16 0xD12F = some (.drw 1 2 15) ∧ decodeTableWord 16 0x5121 = none := by
  decide

/-- 30_encoding.md R94, R95. -/
theorem test_listing : assemble [.stmt .DRW [.v 0, .v 1, .imm 2], .dw 0xC381] = .ok [0xD0, 0x12, 0xC3, 0x81] ∧
    instrText (.drw 0 1 2) = "DRW V0, V1, 0x2".toList ∧ instrText (.ldI 0x20C) = "LD I, 0x20C".toList := by decide

/-! ## One step of each instruction (95_test_vectors.md sections 1 and 2) -/

/-- V-D1. -/
theorem test_cls : Display.pixel (after ((start 0x200 0x00 0xE0).setDisp
    (Vector.replicate 32 (Vector.replicate 64 true)))).disp 63 31 = false := by decide
/-- V-C2. -/
theorem test_ret : (after ((start 0x500 0x00 0xEE).setStack [0x40A, 0x202])).pc = 0x40A ∧
    (after ((start 0x500 0x00 0xEE).setStack [0x40A, 0x202])).stack = [0x202] := by decide
/-- V-C3, V-T5. -/
theorem test_ret_underflow : (after (start 0x206 0x00 0xEE)).status =
    .halted ⟨.stackUnderflow, some 0x206, some 0x00EE, none⟩ := by decide
/-- V-C4. -/
theorem test_jp : (after (start 0x200 0x13 0x45)).pc = 0x345 := by decide
/-- V-C8 and V-C11: room for one more, and the return address at the end of memory. -/
theorem test_call : (after ((start 0x210 0x24 0x00).setStack (deep 15))).stack = 0x212 :: deep 15 ∧
    (after (start 0xFFE 0x2F 0xFE)).stack = [0x1000] := by decide
/-- V-C9. -/
theorem test_call_overflow : (after ((start 0x210 0x24 0x00).setStack (deep 16))).status =
    .halted ⟨.stackOverflow, some 0x210, some 0x2400, none⟩ ∧
    (after ((start 0x210 0x24 0x00).setStack (deep 16))).pc = 0x210 := by decide
/-- V-C12, V-C13. -/
theorem test_seImm : (after ((start 0x200 0x33 0x42).setReg 3 0x42)).pc = 0x204 ∧
    (after ((start 0x200 0x33 0x42).setReg 3 0x41)).pc = 0x202 := by decide
/-- V-C23: a skip past the end. -/
theorem test_seImm_end : (after (start 0xFFC 0x30 0x00)).pc = 0x1000 := by decide
/-- V-C14, V-C15. -/
theorem test_sneImm : (after ((start 0x200 0x43 0x42).setReg 3 0x42)).pc = 0x202 ∧
    (after ((start 0x200 0x43 0x42).setReg 3 0x41)).pc = 0x204 := by decide
/-- V-C16, V-C17. -/
theorem test_seReg : (after (((start 0x200 0x51 0x20).setReg 1 0x10).setReg 2 0x10)).pc = 0x204 ∧
    (after (((start 0x200 0x51 0x20).setReg 1 0x10).setReg 2 0x11)).pc = 0x202 := by decide
/-- V-C19, V-C20. -/
theorem test_sneReg : (after (((start 0x200 0x91 0x20).setReg 1 0x10).setReg 2 0x11)).pc = 0x204 ∧
    (after (((start 0x200 0x91 0x20).setReg 1 0x10).setReg 2 0x10)).pc = 0x202 := by decide
/-- V-A1, V-A2. -/
theorem test_ldImm : (after ((start 0x200 0x61 0xAA).setReg 1 0x55)).reg 1 = 0xAA ∧
    (after ((start 0x200 0x6F 0x00).setReg vf 0x01)).reg vf = 0x00 := by decide
/-- E1c: wrap, VF kept. -/
theorem test_addImm : (after (((start 0x200 0x73 0x80).setReg 3 0x80).setReg vf 0x01)).reg 3 = 0x00 ∧
    (after (((start 0x200 0x73 0x80).setReg 3 0x80).setReg vf 0x01)).reg vf = 0x01 := by decide
/-- V-A15: VF as the destination. -/
theorem test_addImm_vf : (after ((start 0x200 0x7F 0x01).setReg vf 0xFF)).reg vf = 0x00 := by decide
/-- V-A6. -/
theorem test_ldReg : (after (((start 0x200 0x81 0x20).setReg 1 0x3C).setReg 2 0x0F)).reg 1 = 0x0F := by decide
/-- V-A3 in both modes. -/
theorem test_orReg : (after (((start 0x200 0x81 0x21).setReg 1 0x0F).setReg 2 0xF0)).reg 1 = 0xFF ∧
    (after (((startSf 0x200 0x81 0x21).setReg 1 0x0F).setReg 2 0xF0)).reg 1 = 0xF0 := by decide
/-- V-A4 in both modes. -/
theorem test_andReg : (after (((start 0x200 0x81 0x22).setReg 1 0x3C).setReg 2 0x0F)).reg 1 = 0x0C ∧
    (after (((startSf 0x200 0x81 0x22).setReg 1 0x3C).setReg 2 0x0F)).reg 1 = 0x0F := by decide
/-- V-A5 in both modes. -/
theorem test_xorReg : (after (((start 0x200 0x81 0x23).setReg 1 0x3C).setReg 2 0x0F)).reg 1 = 0x33 ∧
    (after (((startSf 0x200 0x81 0x23).setReg 1 0x3C).setReg 2 0x0F)).reg 1 = 0x00 := by decide
/-- V-A11 (std): the carry overwrites the sum; E2g and E2h (sf). -/
theorem test_addReg : (after (((start 0x200 0x8F 0x24).setReg vf 0xF0).setReg 2 0x20)).reg vf = 0x01 ∧
    (after (((startSf 0x200 0x81 0x24).setReg 1 0x01).setReg 2 0x80)).reg vf = 0x01 ∧
    (after (((startSf 0x200 0x81 0x24).setReg 1 0xFF).setReg 2 0x7F)).reg 1 = 0xFE := by decide
/-- V-A13: Y = F, both modes. -/
theorem test_addReg_vf_source : (after (((start 0x200 0x81 0xF4).setReg 1 0xFF).setReg vf 0x01)).reg 1 = 0x00 ∧
    (after (((start 0x200 0x81 0xF4).setReg 1 0xFF).setReg vf 0x01)).reg vf = 0x01 ∧
    (after (((startSf 0x200 0x81 0xF4).setReg 1 0xFF).setReg vf 0x01)).reg vf = 0x00 := by decide
/-- V-I2. -/
theorem test_ldI : (after ((start 0x200 0xAF 0xFF).setI 0x123)).i = 0xFFF := by decide
/-- V-D7: a collision at the right edge, the other columns clipped. -/
theorem test_drw_collision : Display.pixel (after (((start 0x200 0xD0 0x11).memWrite 0x300 0xFF).setI 0x300
      |>.setReg 0 0x3F |>.setDisp (Display.toggle Display.clear 63 0))).disp 63 0 = false ∧
    (after (((start 0x200 0xD0 0x11).memWrite 0x300 0xFF).setI 0x300
      |>.setReg 0 0x3F |>.setDisp (Display.toggle Display.clear 63 0))).reg vf = 0x01 := by decide
/-- V-D5, V-D13 (X = F) and V-D2 in COLLISION_MODE = none. -/
theorem test_drw_bits : Display.pixel (after (((start 0x200 0xD0 0x11).memWrite 0x300 0x01).setI 0x300)).disp 7 0 = true ∧
    Display.pixel (after (((start 0x200 0xDF 0x01).memWrite 0x300 0x80).setI 0x300
      |>.setReg 0 0x05 |>.setReg vf 0x02)).disp 2 5 = true ∧
    (after ((startNone 0x200 0xD0 0x15).setReg vf 0x07)).reg vf = 0x07 := by decide

/-! ## Errors (95_test_vectors.md section 2.8) and the boundary (2.9) -/

/-- V-T1 (= V-T11: fetch before dispatch) and V-T2. -/
theorem test_fetch_fault : (after ((State.reset.setPc 0xFFF).memWrite 0xFFF 0xFF)).status =
      .halted ⟨.memoryOutOfBounds, some 0xFFF, none, some 0x1000⟩ ∧
    (after (State.reset.setPc 0x1000)).status = .halted ⟨.memoryOutOfBounds, some 0x1000, none, some 0x1000⟩ := by
  decide
/-- V-T7, V-D9 and V-D11 (N = 0 cannot fault). -/
theorem test_drw_fault : (after (((start 0x20A 0xD0 0x12).setI 0xFFF).setReg vf 0x07)).status =
      .halted ⟨.memoryOutOfBounds, some 0x20A, some 0xD012, some 0x1000⟩ ∧
    (after (((start 0x20A 0xD0 0x12).setI 0xFFF).setReg vf 0x07)).reg vf = 0x07 ∧
    (after (((start 0x20A 0xD0 0x10).setI 0xFFF).setReg vf 0x07)).reg vf = 0x00 := by decide
/-- E8a, E8b. -/
theorem test_unimplemented : (after (start 0x200 0xFF 0xFF)).status =
      .halted ⟨.unimplementedOpcode, some 0x200, some 0xFFFF, none⟩ ∧
    (after2 (start 0x200 0xFF 0xFF)).status = (after (start 0x200 0xFF 0xFF)).status := by decide
/-- 60_exceptions.md R210: the codes. -/
theorem test_codes : [ErrorKind.unimplementedOpcode, .stackOverflow, .stackUnderflow, .memoryOutOfBounds, .romTooLarge].map
    ErrorKind.code = [1, 2, 3, 4, 5] ∧ statusCode .running = 0 := by decide
/-- V-R1. -/
theorem test_reset_memory : (List.range 5).map State.reset.peek = [0xF0, 0x90, 0x90, 0x90, 0xF0] ∧
    [0x4B, 0x4C, 0x4D, 0x4E, 0x4F, 0x50, 0x200].map State.reset.peek = [0xF0, 0x80, 0xF0, 0x80, 0x80, 0x00, 0x00] := by
  decide
/-- V-R5: an odd image, its last word completed by a zero byte. -/
theorem test_loadRom : ((block (boundaryRun [.reset, .loadRom [0xA2, 0x00, 0x60], .step, .step] fresh)).map
    fun b => (b.block.i, b.block.reg 0, b.block.pc)) = some (0x200, 0x00, 0x204) := by decide
/-- V-T8 / V-R3: one byte too many. -/
theorem test_loadRom_too_large : (loadRom (List.replicate 3585 0x12#8) State.reset).status =
    .halted ⟨.romTooLarge, none, none, none⟩ := by
  rw [loadRom, List.length_replicate]
  rfl
/-- V-R7, V-T10 and a second LoadRom (70_reset_and_hazards.md R246). -/
theorem test_stop_and_reset : ((block (boundaryRun [.stop, .step] fresh)).map fun b => b.block.status) = some .stopped ∧
    ((block (boundaryRun [.step, .reset] fresh)).map fun b => b.block.status) = some .running ∧
    (block (boundaryRun [.loadRom [], .loadRom []] fresh)).isNone = true := by decide
/-- A word placed where the step fetches is the word it runs. -/
theorem test_withFetchWord : (after (State.reset.withFetchWord 16 0x6A2F)).reg 0xA = 0x2F := by decide

/-! ## Witnesses: a concrete input that meets the hypotheses of each statement that has some -/

/-- Also of the encoding clauses of JumpLoadsPc, SkipsOnAnImmediate, LoadImmediateSetsTheRegister,
AddImmediateWrapsAndSetsNoCarry, CopyRegisterCopies and LoadIndexSetsI. -/
theorem witness_EveryRowDecodesWithItsFields :
    0x00E0#16 &&& 0xFFFF#16 = 0x00E0#16 ∧ 0x00EE#16 &&& 0xFFFF#16 = 0x00EE#16 ∧ 0x1FFF#16 &&& 0xF000#16 = 0x1000#16 ∧
    0x2000#16 &&& 0xF000#16 = 0x2000#16 ∧ 0x3FFF#16 &&& 0xF000#16 = 0x3000#16 ∧ 0x4F00#16 &&& 0xF000#16 = 0x4000#16 ∧
    0x5FF0#16 &&& 0xF00F#16 = 0x5000#16 ∧ 0x6FFF#16 &&& 0xF000#16 = 0x6000#16 ∧ 0x7001#16 &&& 0xF000#16 = 0x7000#16 ∧
    0x8FF0#16 &&& 0xF00F#16 = 0x8000#16 ∧ 0x8121#16 &&& 0xF00F#16 = 0x8001#16 ∧ 0x8122#16 &&& 0xF00F#16 = 0x8002#16 ∧
    0x8123#16 &&& 0xF00F#16 = 0x8003#16 ∧ 0x8FF4#16 &&& 0xF00F#16 = 0x8004#16 ∧ 0x9AB0#16 &&& 0xF00F#16 = 0x9000#16 ∧
    0xAFFF#16 &&& 0xF000#16 = 0xA000#16 ∧ 0xDFFF#16 &&& 0xF000#16 = 0xD000#16 := by decide

theorem witness_EncodeOfDecodeIsTheWord : decodeWord 0xDFFF#16 = some (.drw 0xF#4 0xF#4 0xF#4) := by decide

theorem witness_DispatchSelectsTheOneFittingRow :
    (∃ r ∈ opcodeTable, r.fits 0x8FF4#16 = true) ∧ (∀ r ∈ opcodeTable, r.fits 0x0000#16 = false) := by decide

theorem witness_ListingAssemblesToTheEncoding : (Line.dw 0x10000).wf = false ∧ (Line.dw 0xFFFF).wf = true ∧
    (Line.stmt .SE [.v 16, .imm 0]).wf = false ∧ (Line.stmt .SE [.v 15, .imm 255]).wf = true := by decide

/-- At the last fetchable word; and, of the boundary's clause, on a Running and on a Stopped block. -/
theorem witness_StepRunsTheDecodedInstruction :
    (start 0xFFE 0x62 0x01).status = .running ∧ (start 0xFFE 0x62 0x01).pc.toNat + 1 < 4096 ∧
    decode [(start 0xFFE 0x62 0x01).peek 0xFFE, (start 0xFFE 0x62 0x01).peek 0xFFF] = .ok (.ldImm 0x2#4 0x01#8, []) ∧
    step (start 0xFFE 0x62 0x01) = .next (after (start 0xFFE 0x62 0x01)) ∧
    step (hostStop State.reset) = .next (hostStop State.reset) :=
  ⟨by decide, by decide, by decide, eq_nextOf (by decide), rfl⟩

/-- At 0xFFF, 0x1000 and 0x1002. -/
theorem witness_FetchBeyondMemoryHalts : ([0xFFF, 0x1000, 0x1002] : List Word).all
    (fun w => decide ((State.reset.setPc w).status = .running) && decide (4096 ≤ (State.reset.setPc w).pc.toNat + 1)) = true := by
  decide

theorem witness_UnimplementedWordHalts : (start 0xFFE 0xFF 0xFF).status = .running ∧
    (start 0xFFE 0xFF 0xFF).pc.toNat + 1 < 4096 ∧
    (∀ r ∈ opcodeTable, r.fits ((start 0xFFE 0xFF 0xFF).wordAt (start 0xFFE 0xFF 0xFF).pc.toNat) = false) := by decide

theorem witness_StepWhenNotRunningDoesNothing : (after (start 0x200 0xFF 0xFF)).status ≠ .running ∧
    (hostStop State.reset).status ≠ .running := by decide

/-- A step that raises (the first clause) and one that does not (the second). -/
theorem witness_StepRaisesExactlyItsFirstError : (start 0x206 0x00 0xEE).status = .running ∧
    errorOf (start 0x206 0x00 0xEE) = some ⟨.stackUnderflow, some 0x206, some 0x00EE, none⟩ ∧
    (start 0x200 0x60 0x2A).status = .running ∧ errorOf (start 0x200 0x60 0x2A) = none := by decide

theorem witness_FailedCheckRestoresTheState : checkOf State.reset .ret = some ⟨.stackUnderflow, none⟩ ∧
    checkOf (State.reset.setStack (deep 16)) (.call 0x400) = some ⟨.stackOverflow, none⟩ ∧
    checkOf (State.reset.setI 0xFFF) (.drw 0 1 2) = some ⟨.memoryOutOfBounds, some 0x1000⟩ := by decide

/-- Also of PcAfterEveryInstruction's first clause; its second is `witness_FailedCheckRestoresTheState`. -/
theorem witness_FrameOfEveryInstruction : checkOf (State.reset.setStack (deep 16)) .ret = none ∧
    checkOf (State.reset.setStack (deep 15)) (.call 0x400) = none ∧ checkOf (State.reset.setI 0xFFF) (.drw 0 1 1) = none ∧
    checkOf State.reset .cls = none := by decide

/-- A state with a program and a stack that meets the invariant. -/
def good : State := (start 0xFFC 0x30 0x00).setStack [0x1000#16]

theorem good_inv : Inv good where
  params := by decide
  memory := by decide
  index := by decide
  pc := by decide
  depth := by decide
  entries := by
    intro w h
    have hs : good.stack = [0x1000#16] := rfl
    rw [hs, List.mem_singleton] at h
    rw [h]
    decide
  timer := by decide
  record := by
    intro r h
    have hs : good.status = .running := by decide
    rw [hs] at h
    cases h

theorem witness_StepKeepsTheInvariant : ∃ s t : State, Inv s ∧ step s = .next t :=
  ⟨good, after good, good_inv, eq_nextOf (by decide)⟩

theorem witness_BoundaryKeepsTheInvariant : ∃ b b' : Boundary, Inv b.block ∧ boundary (.loadRom [0x12, 0x00]) b = .next b' :=
  ⟨⟨good, true⟩, ⟨loadRom [0x12, 0x00] good, false⟩, good_inv, rfl⟩

theorem witness_ResetMeetsTheInvariant : ∃ c : Config, c.wf := ⟨{ defaultConfig with stackDepth := 1 }, by decide⟩

theorem witness_MemoryChangesOnlyAtResetAndLoadRom : (4095 < 4096) ∧ ∃ t, step good = .next t :=
  ⟨by decide, after good, eq_nextOf (by decide)⟩

theorem witness_DisplayIsTouchedOnlyByClsAndDrw : ∃ t, exec (.jp 0x345#12) State.reset = .next t ∧
    Instr.jp 0x345#12 ≠ .cls ∧ ∀ x y n, Instr.jp 0x345#12 ≠ .drw x y n :=
  ⟨_, eq_nextOf (d := State.reset) (by decide), by decide, fun _ _ _ h => by cases h⟩

/-- FX15 and FX07 under PC, and a run of boundary operations. -/
theorem witness_DelayTimerIsInert : (start 0x200 0xFF 0x15).wordAt 0x200 = 0xF#4 ++ 0xF#4 ++ 0x15#8 ∧
    (start 0x200 0xF0 0x07).wordAt 0x200 = 0xF#4 ++ 0x0#4 ++ 0x07#8 ∧ (start 0x200 0xFF 0x15).status = .running ∧
    (start 0x200 0xFF 0x15).pc = 0x200 ∧ fresh.block.dt = 0x00#8 ∧
    (block (boundaryRun [.reset, .loadRom [0x60, 0x05], .step, .step, .stop] fresh)).isSome = true := by decide

theorem witness_IndexIsWrittenOnlyByLdIAndReadOnlyByDrw : ∃ t, exec .cls State.reset = .next t ∧
    (∀ nnn, Instr.cls ≠ .ldI nnn) ∧ ∀ x y n, Instr.cls ≠ .drw x y n :=
  ⟨_, eq_nextOf (d := State.reset) (by decide), by simp, by simp⟩

/-- A jump to 0xFFF; a jump to itself, at the last address one can be fetched from. -/
theorem witness_JumpLoadsPc : State.reset.status = .running ∧ (start 0xFFE 0x1F 0xFE).status = .running ∧
    (0xFFE#12).toNat + 1 < 4096 ∧ (start 0xFFE 0x1F 0xFE).pc.toNat = (0xFFE#12).toNat ∧
    (start 0xFFE 0x1F 0xFE).wordAt (start 0xFFE 0x1F 0xFE).pc.toNat = encode (.jp 0xFFE#12) ∧
    0x1FFF#16 &&& 0xF000#16 = 0x1000#16 := by decide

theorem witness_ReturnPopsTheStack : (State.reset.setStack [0x40A#16, 0x202#16]).stack = [0x40A#16, 0x202#16] ∧
    State.reset.stack = [] := by decide

theorem witness_CallPushesTheReturnAddress :
    (State.reset.setStack (deep 15)).stack.length < (State.reset.setStack (deep 15)).params.stackDepth ∧
    (State.reset.setStack (deep 16)).stack.length = (State.reset.setStack (deep 16)).params.stackDepth ∧
    State.reset.pc.toNat + 1 < 4096 := by decide

/-- E3a's state. -/
def callRet : State := ((start 0x200 0x23 0x00).memWrite 0x300 0x00).memWrite 0x301 0xEE

theorem witness_CallThenReturnComesBack : callRet.status = .running ∧ callRet.pc.toNat + 1 < 4096 ∧
    callRet.wordAt callRet.pc.toNat = encode (.call 0x300#12) ∧ callRet.stack.length < callRet.params.stackDepth ∧
    (0x300#12).toNat + 1 < 4096 ∧ callRet.wordAt (0x300#12).toNat = 0x00EE#16 := by decide

/-- Both clauses of SkipsOnAnImmediate and of SkipsOnTwoRegisters. -/
theorem witness_Skips : (State.reset.setReg 3 0x42).reg 3 = 0x42 ∧ (State.reset.setReg 3 0x41).reg 3 ≠ 0x42 ∧
    (State.reset.setReg 3 0x42).reg 4 ≠ (State.reset.setReg 3 0x42).reg 3 ∧ State.reset.reg 1 = State.reset.reg 2 := by
  decide

/-- Each ALU_MODE occurs, as LogicOperationsInBothModes also asks; the carry's two clauses at 255 and 256. -/
theorem witness_AddRegisterSetsSumAndCarry : State.reset.params.aluMode = .standard ∧
    (startSf 0x200 0x81 0x24).params.aluMode = .sourceFaithful ∧
    256 ≤ ((State.reset.setReg 1 0xFF).setReg 2 0x01 |>.reg 1).toNat + ((State.reset.setReg 1 0xFF).setReg 2 0x01 |>.reg 2).toNat ∧
    ((State.reset.setReg 1 0xFE).setReg 2 0x01 |>.reg 1).toNat + ((State.reset.setReg 1 0xFE).setReg 2 0x01 |>.reg 2).toNat < 256 ∧
    (1 : RegIdx) ≠ vf := by decide

theorem witness_LoadIndexSetsI : 0xAFFF#16 &&& 0xF000#16 = 0xA000#16 ∧ 2 ≤ (0x2#4).toNat ∧ (0x1#4).toNat = 1 := by decide

/-- A clear display, and one that is not. -/
theorem witness_ClearScreenClearsEveryPixel : (∀ x y : Nat, Display.pixel Display.clear x y = false) ∧
    Display.pixel (Display.toggle Display.clear 63 31) 63 31 = true := by
  refine ⟨fun x y => ?_, by decide⟩
  unfold Display.pixel Display.clear
  split <;> simp

/-- V-D10's state: the last valid row. The pixel (0, 0) is on, and covered. -/
def drawState : State := ((start 0x200 0xD0 0x11).memWrite 0xFFF 0x80).setI 0xFFF |>.setDisp (Display.toggle Display.clear 0 0)

theorem witness_DrawXorsTheSpriteAndReportsCollision : drawState.i.toNat + (0x1#4).toNat - 1 < 4096 ∧
    drawState.params.collisionMode = .standard ∧ (startNone 0x200 0xD0 0x11).params.collisionMode = .none ∧
    Display.pixel drawState.disp 0 0 = true ∧
    spriteCovers drawState (drawState.reg 0).toNat (drawState.reg 1).toNat (0x1#4).toNat 0 0 = true := by decide

/-- The clause of no collision: nothing is on. -/
theorem witness_DrawWithoutCollision : ∀ px py : Nat, px < 64 → py < 32 → Display.pixel State.reset.disp px py = true →
    spriteCovers State.reset 0 0 5 px py = false := by
  intro px py _ _ h
  have h0 := witness_ClearScreenClearsEveryPixel.1 px py
  have h1 : State.reset.disp = Display.clear := rfl
  rw [h1, h0] at h
  cases h

theorem witness_DrawBeyondMemoryHalts : 0 < (0x2#4).toNat ∧ 4096 ≤ (State.reset.setI 0xFFF).i.toNat + (0x2#4).toNat - 1 := by
  decide

/-- N = 0; a sprite right of the grid; one below it; each COLLISION_MODE. -/
theorem witness_EmptyAndOffGridDrawsChangeNoPixel : (0x0#4).toNat = 0 ∧
    (State.reset.i.toNat + (0x5#4).toNat - 1 < 4096 ∧ 64 ≤ ((State.reset.setReg 0 64).reg 0).toNat) ∧
    32 ≤ ((State.reset.setReg 1 32).reg 1).toNat ∧ State.reset.params.collisionMode = .standard ∧
    (startNone 0x200 0xD0 0x10).params.collisionMode = .none := by decide

/-- E5a's first draw, and the second. -/
def firstDraw : State := nextOf (exec (.drw 0 1 5) State.reset) State.reset

theorem witness_DrawingTwiceRestoresTheDisplay : ∃ s t u : State, s.i.toNat + (0x5#4).toNat - 1 < 4096 ∧
    exec (.drw 0 1 5) s = .next t ∧ exec (.drw 0 1 5) t = .next u ∧ t.reg 0 = s.reg 0 ∧ t.reg 1 = s.reg 1 ∧
    s.params.collisionMode = .standard ∧ Display.pixel s.disp 0 0 = false ∧ Display.pixel t.disp 0 0 = true :=
  ⟨State.reset, firstDraw, nextOf (exec (.drw 0 1 5) firstDraw) firstDraw, by decide, eq_nextOf (by decide),
    eq_nextOf (by decide), by decide, by decide, by decide, by decide,
    by decide⟩

/-- The longest image that fits, and the shortest that does not (OversizedRomHaltsAndWritesNothing); both clauses of the
kept bytes. -/
theorem witness_LoadRomPlacesTheImage : fresh.block.status = .running ∧ fresh.loadPermitted = true ∧
    (List.replicate 3584 0x12#8).length ≤ 3584 ∧ 3584 < (List.replicate 3585 0x12#8).length ∧ 0x1FF < 0x200 ∧
    0x200 + (List.replicate 3584 0x12#8).length ≤ 4096 :=
  ⟨rfl, rfl, by rw [List.length_replicate], by rw [List.length_replicate]; decide, by decide,
    by rw [List.length_replicate]⟩

/-- After a LoadRom, and after a Step, that leave the block Running. -/
theorem witness_LateLoadRomIsRefused : (∃ b', boundary (.loadRom []) fresh = .next b' ∧ b'.block.status = .running) ∧
    (∃ b', boundary .step ⟨start 0x200 0x60 0x2A, true⟩ = .next b' ∧ b'.block.status = .running) := by
  have h : step (start 0x200 0x60 0x2A) = .next (after (start 0x200 0x60 0x2A)) := eq_nextOf (by decide)
  refine ⟨⟨_, rfl, rfl⟩, ⟨⟨after (start 0x200 0x60 0x2A), false⟩, ?_, by decide⟩⟩
  unfold boundary boundaryStep
  dsimp only
  rw [h]

theorem witness_HaltedAndStoppedAreAbsorbing : (hostStop fresh.block).status ≠ .running ∧
    (after (start 0x200 0xFF 0xFF)).status ≠ .running ∧ HostOp.loadRom [] ≠ .reset ∧ HostOp.step ≠ .reset := by decide

theorem witness_StopEndsTheRun : fresh.block.status = .running := by decide

theorem witness_SnapshotIsRowMajor : 63 < 64 ∧ 31 < 32 := by decide

/-- A block that has not halted, and a halt of each kind (60_exceptions.md R210's five). -/
theorem witness_InspectShowsTheState : (∀ r, State.reset.status ≠ .halted r) ∧
    (after (start 0x200 0xFF 0xFF)).status = .halted ⟨.unimplementedOpcode, some 0x200, some 0xFFFF, none⟩ ∧
    (after ((start 0x210 0x24 0x00).setStack (deep 16))).status = .halted ⟨.stackOverflow, some 0x210, some 0x2400, none⟩ ∧
    (after (start 0x206 0x00 0xEE)).status = .halted ⟨.stackUnderflow, some 0x206, some 0x00EE, none⟩ ∧
    (after (State.reset.setPc 0x1000)).status = .halted ⟨.memoryOutOfBounds, some 0x1000, none, some 0x1000⟩ ∧
    (raiseRomTooLarge State.reset).status = .halted ⟨.romTooLarge, none, none, none⟩ := by
  refine ⟨fun r h => ?_, by decide, by decide, by decide, by decide, by decide⟩
  cases h

end Sys2Proof.Tests
end

section
/-! PROOFS. What the instructions, the steps and the boundary operations do, each said once for the proofs that follow. -/

namespace Sys2Proof.Machine

/-! ## The rule of each instruction -/

/-- The rule each arm of `exec` hands to `execute`, on the state whose PC has been advanced (`exec_eq_execute`). -/
def instrRule : Instr → State → Except StepError State
  | .cls, s => .ok (s.setDisp Display.clear)
  | .ret, s => popPc s
  | .jp nnn, s => .ok (s.setPc (zext16 nnn))
  | .call nnn, s => (pushPc s).map fun s2 => s2.setPc (zext16 nnn)
  | .seImm x nn, s => .ok (s.skipIf (s.reg x == nn))
  | .sneImm x nn, s => .ok (s.skipIf (s.reg x != nn))
  | .seReg x y, s => .ok (s.skipIf (s.reg x == s.reg y))
  | .ldImm x nn, s => .ok (s.setReg x nn)
  | .addImm x nn, s => .ok (s.setReg x (aluAdd (s.reg x) nn))
  | .ldReg x y, s => .ok (s.setReg x (s.reg y))
  | .orReg x y, s => .ok (s.setReg x (aluOr (aluA s x y) (aluB s y)))
  | .andReg x y, s => .ok (s.setReg x (aluAnd (aluA s x y) (aluB s y)))
  | .xorReg x y, s => .ok (s.setReg x (aluXor (aluA s x y) (aluB s y)))
  | .addReg x y, s =>
    .ok (writeCarry (s.setReg x (aluAdd (aluA s x y) (aluB s y))) (carryOut (aluA s x y) (aluB s y)))
  | .sneReg x y, s => .ok (s.skipIf (s.reg x != s.reg y))
  | .ldI nnn, s => .ok (s.setI (zext16 nnn))
  | .drw x y n, s => (spriteRows s n).map fun rows =>
      writeCollision (s.setDisp (drawSprite (s.reg x).toNat (s.reg y).toNat rows s.disp).1)
        (drawSprite (s.reg x).toNat (s.reg y).toNat rows s.disp).2

/-- Every instruction runs its rule in the way of 30_encoding.md R85. -/
theorem exec_eq_execute (i : Instr) (s : State) : exec i s = execute i s (instrRule i) := by
  cases i <;> rfl

/-! ## Steps and boundary operations -/

/-- A Running step at a word that no row of the table fits raises UnimplementedOpcode (30_encoding.md R91). -/
theorem step_unimplemented {s : State} (hr : s.status = .running) (hpc : s.pc.toNat + 1 < 4096)
    (hd : decodeWord (s.wordAt s.pc.toNat) = none) :
    step s = .next { s with status := .halted ⟨.unimplementedOpcode, some s.pc, some (s.wordAt s.pc.toNat), none⟩ } :=
  step_error hr (fetchInstr_unimplemented s hpc hd)

/-- A LoadRom that is not refused does nothing (the block has stopped), or loads the image and closes the window. -/
theorem boundaryLoad_cases {bytes : List Byte} {b b' : Boundary} (h : boundaryLoad bytes b = .next b') :
    (b.block.status ≠ .running ∧ b' = b) ∨
      (b.block.status = .running ∧ b.loadPermitted = true ∧ b' = ⟨loadRom bytes b.block, false⟩) := by
  unfold boundaryLoad at h
  split at h
  case h_1 hs => cases h; exact .inl ⟨by simp [hs], rfl⟩
  case h_2 hs => cases h; exact .inl ⟨by simp [hs], rfl⟩
  case h_3 hs =>
    split at h
    · next hp => cases h; exact .inr ⟨hs, hp, rfl⟩
    · cases h

/-- The boundary's Step is the block's step and closes LoadRom's window. -/
theorem boundaryStep_next {b b' : Boundary} (h : boundaryStep b = .next b') :
    step b.block = .next b'.block ∧ b'.loadPermitted = false := by
  unfold boundaryStep at h
  split at h
  · next hs => cases h; exact ⟨hs, rfl⟩
  · cases h
  · cases h

/-- What every boundary operation keeps holds after every sequence of them. -/
theorem boundaryRun_keeps {P : Boundary → Prop} (hop : ∀ op b b', P b → boundary op b = .next b' → P b')
    {ops : List HostOp} {b b' : Boundary} (hb : P b) (h : boundaryRun ops b = .next b') : P b' := by
  induction ops generalizing b with
  | nil => cases h; exact hb
  | cons op rest ih =>
    unfold boundaryRun at h
    split at h
    · next c hc => exact ih (hop op b c hb hc) h
    · cases h
    · cases h

end Sys2Proof.Machine
end

section
/-! PROOFS. The delay timer is inert (spec 10_state.md R30). The key fact is that overwriting DT commutes with every
instruction; that DT is kept follows from it. -/

namespace Sys2Proof.Machine

/-! ## Overwriting DT -/

/-- `DT <- w`, which no instruction does: the state with another delay timer. -/
def State.setDt (s : State) (w : Byte) : State := { s with dt := w }

@[simp] theorem State.setDt_dt (s : State) (w : Byte) : (s.setDt w).dt = w := rfl
@[simp] theorem State.setDt_self (s : State) : s.setDt s.dt = s := rfl

theorem State.skipIf_setDt (s : State) (w : Byte) (c : Bool) : (s.setDt w).skipIf c = (s.skipIf c).setDt w := by
  cases c <;> rfl

theorem writeCollision_setDt (s : State) (w : Byte) (c : Bool) :
    writeCollision (s.setDt w) c = (writeCollision s c).setDt w := by
  simp only [writeCollision, State.setDt]
  cases s.params.collisionMode <;> rfl

theorem popPc_setDt (s : State) (w : Byte) : popPc (s.setDt w) = (popPc s).map (State.setDt · w) := by
  cases h : s.stack with
  | nil => rw [popPc_empty s h, popPc_empty (s.setDt w) h]; rfl
  | cons top rest => rw [popPc_cons s h, popPc_cons (s.setDt w) h]; rfl

theorem pushPc_setDt (s : State) (w : Byte) : pushPc (s.setDt w) = (pushPc s).map (State.setDt · w) := by
  by_cases h : s.stack.length = s.params.stackDepth
  · rw [pushPc_full s h, pushPc_full (s.setDt w) h]; rfl
  · rw [pushPc_room s h, pushPc_room (s.setDt w) h]; rfl

/-- The sprite is read from memory at I, so not from DT. -/
theorem spriteRows_setDt (s : State) (w : Byte) (n : Nibble) : spriteRows (s.setDt w) n = spriteRows s n := rfl

/-! ## Instructions and steps -/

/-- Overwriting DT before a rule is the same as overwriting it after: no rule reads DT, and none writes it. -/
theorem instrRule_setDt (i : Instr) (s : State) (w : Byte) :
    instrRule i (s.setDt w) = (instrRule i s).map (State.setDt · w) := by
  cases i with
  | ret => exact popPc_setDt s w
  | call nnn =>
    simp only [instrRule, pushPc_setDt]
    cases pushPc s <;> rfl
  | seImm | sneImm | seReg | sneReg => exact congrArg Except.ok (State.skipIf_setDt s w _)
  | drw x y n =>
    simp only [instrRule, spriteRows_setDt]
    cases spriteRows s n with
    | error e => rfl
    | ok rows => exact congrArg Except.ok (writeCollision_setDt (s.setDisp _) w _)
  | cls | jp | ldImm | addImm | ldReg | orReg | andReg | xorReg | addReg | ldI => rfl

/-- Every instruction has a next state, and overwriting DT before it is the same as overwriting DT after it. -/
theorem exec_setDt (i : Instr) (s : State) (w : Byte) :
    ∃ t, exec i s = .next t ∧ exec i (s.setDt w) = .next (t.setDt w) := by
  have hrule := instrRule_setDt i s.advance w
  obtain ⟨t, ht, hs⟩ | ⟨e, he, hs⟩ := execute_cases i s (instrRule i) <;> rw [← exec_eq_execute] at hs
  · rw [ht] at hrule
    exact ⟨t, hs, (exec_eq_execute i _).trans (execute_ok hrule)⟩
  · rw [he] at hrule
    exact ⟨_, hs, (exec_eq_execute i _).trans (execute_error hrule)⟩

/-- An instruction keeps DT: overwriting DT with the value it has already changes nothing, before or after. -/
theorem exec_dt {i : Instr} {s t : State} (h : exec i s = .next t) : t.dt = s.dt := by
  obtain ⟨u, -, hw⟩ := exec_setDt i s s.dt
  rw [State.setDt_self, h] at hw
  injection hw with ht
  rw [ht, State.setDt_dt]

theorem step_dt {s t : State} (h : step s = .next t) : t.dt = s.dt := by
  obtain ⟨-, hs⟩ | ⟨-, -, hs⟩ | ⟨-, -, -, hs⟩ | ⟨i, -, -, -, hs⟩ := step_cases s
  case inr.inr.inr => exact exec_dt (hs.symm.trans h)
  all_goals cases hs.symm.trans h; rfl

/-! ## Boundary operations -/

@[simp] theorem hostReset_dt (s : State) : (hostReset s).dt = 0x00#8 := rfl

@[simp] theorem hostStop_dt (s : State) : (hostStop s).dt = s.dt := by
  unfold hostStop; split <;> rfl

@[simp] theorem State.writeBytes_dt (s : State) (base : Nat) (bytes : List Byte) : (s.writeBytes base bytes).dt = s.dt := by
  obtain ⟨m, hm⟩ := State.writeBytes_keeps s base bytes
  rw [hm]

@[simp] theorem loadRom_dt (bytes : List Byte) (s : State) : (loadRom bytes s).dt = s.dt := by
  unfold loadRom
  split
  · rfl
  · exact State.writeBytes_dt s _ bytes

/-- Reset clears DT and every other boundary operation keeps it. -/
theorem boundary_dt_zero (op : HostOp) (b b' : Boundary) (hb : b.block.dt = 0x00#8) (h : boundary op b = .next b') :
    b'.block.dt = 0x00#8 := by
  cases op with
  | reset => cases h; exact hostReset_dt b.block
  | loadRom bytes =>
    obtain ⟨-, rfl⟩ | ⟨-, -, rfl⟩ := boundaryLoad_cases h
    · exact hb
    · exact (loadRom_dt bytes b.block).trans hb
  | step => exact (step_dt (boundaryStep_next h).1).trans hb
  | stop => cases h; exact (hostStop_dt b.block).trans hb

/-! ## The timer's opcodes -/

/-- No row of the opcode table has class nibble F (30_encoding.md R88), so FX15 and FX07 are no instructions. -/
theorem decodeWord_classF (x : RegIdx) (nn : Byte) : decodeWord (0xF#4 ++ x ++ nn) = none := by
  simp [decodeWord, decodeFields, dispatch]

/-- Settles O22: DT commutes with every instruction, so no step changes it; the boundary operations keep it 0; the timer's
opcodes have class nibble F and do not decode. -/
theorem delayTimerIsInert : Obligations.DelayTimerIsInert := by
  refine ⟨fun i s w => ?_, fun _ _ h => step_dt h, fun _ _ _ hb h => boundaryRun_keeps boundary_dt_zero hb h,
    fun s x hr hpc hw => step_unimplemented hr hpc ?_⟩
  · obtain ⟨t, ht, hw⟩ := exec_setDt i s w
    exact ⟨t, ht, exec_dt ht, hw⟩
  · obtain hw | hw := hw <;> rw [hw, decodeWord_classF]

end Sys2Proof.Machine
end

section
/-! PROOFS. MemWrite sets one byte, and no instruction, no step and no Stop writes memory (spec 20_memory.md R53). The key
fact is about the instructions' rules: each keeps the list of memory cells and the parameters, from which memory is read. -/

namespace Sys2Proof.Machine

/-- What memory reads as depends only on its cells and the parameters, whose FONT unlisted addresses read as. -/
theorem State.peek_congr {s t : State} (h : t.mem = s.mem ∧ t.params = s.params) (a : Nat) : t.peek a = s.peek a := by
  obtain ⟨hmem, hparams⟩ := h
  rw [State.peek, State.peek, hmem, hparams]

/-! ## Instructions and steps -/

/-- No rule writes memory or a parameter: the stack's rules and DXYN write other parts or raise, and the rest only set a
register, I, PC or the display. -/
theorem instrRule_mem_params {i : Instr} {s t : State} (h : instrRule i s = .ok t) :
    t.mem = s.mem ∧ t.params = s.params := by
  cases i with
  | ret =>
    cases hs : s.stack with
    | nil => cases (popPc_empty s hs).symm.trans h
    | cons top rest => cases (popPc_cons s hs).symm.trans h; exact ⟨rfl, rfl⟩
  | call nnn =>
    by_cases hfull : s.stack.length = s.params.stackDepth
    · simp only [instrRule, pushPc_full s hfull] at h; cases h
    · simp only [instrRule, pushPc_room s hfull] at h; cases h; exact ⟨rfl, rfl⟩
  | drw x y n =>
    simp only [instrRule] at h
    cases hrows : spriteRows s n with
    | error e => rw [hrows] at h; cases h
    | ok rows => rw [hrows] at h; cases h; simp
  | seImm | sneImm | seReg | sneReg => cases h; simp
  | cls | jp | ldImm | addImm | ldReg | orReg | andReg | xorReg | addReg | ldI => cases h; exact ⟨rfl, rfl⟩

/-- An instruction keeps memory and the parameters, by its rule or because it raises on the state before the fetch. -/
theorem exec_mem_params {i : Instr} {s t : State} (h : exec i s = .next t) : t.mem = s.mem ∧ t.params = s.params := by
  rw [exec_eq_execute] at h
  obtain ⟨u, hu, hs⟩ | ⟨e, -, hs⟩ := execute_cases i s (instrRule i) <;> cases hs.symm.trans h
  · exact instrRule_mem_params (s := s.advance) hu
  · exact ⟨rfl, rfl⟩

theorem step_mem_params {s t : State} (h : step s = .next t) : t.mem = s.mem ∧ t.params = s.params := by
  obtain ⟨-, hs⟩ | ⟨-, -, hs⟩ | ⟨-, -, -, hs⟩ | ⟨i, -, -, -, hs⟩ := step_cases s
  case inr.inr.inr => exact exec_mem_params (hs.symm.trans h)
  all_goals cases hs.symm.trans h; exact ⟨rfl, rfl⟩

/-! ## Stop -/

theorem hostStop_mem_params (s : State) : (hostStop s).mem = s.mem ∧ (hostStop s).params = s.params := by
  unfold hostStop; split <;> exact ⟨rfl, rfl⟩

/-- Settles O20: a read after MemWrite is the law of `State.memWrite`, and every step and Stop keep the cells and the
parameters memory is read from. -/
theorem memoryChangesOnlyAtResetAndLoadRom : Obligations.MemoryChangesOnlyAtResetAndLoadRom := by
  refine ⟨fun s a b v ha => ?_, fun _ _ h => State.peek_congr (step_mem_params h),
    fun s => State.peek_congr (hostStop_mem_params s)⟩
  simp only [State.memWrite_peek, ha, true_and]

end Sys2Proof.Machine
end

section
/-! PROOFS. The fields of a word (spec 30_encoding.md R81) as digits of its value. -/

namespace Sys2Proof

/-- Cut at bits 12, 8 and 4, a word has its nibbles as hexadecimal digits. -/
theorem toNat_eq_nibbles (w : Word) :
    w.toNat = (decodeFields w).n1.toNat * 4096 + (decodeFields w).n2.toNat * 256 + (decodeFields w).n3.toNat * 16 +
      (decodeFields w).n4.toNat := by
  have hw : w.toNat < 65536 := w.isLt
  simp only [decodeFields, BitVec.extractLsb'_toNat, Nat.shiftRight_eq_div_pow]
  omega

/-- The mask of `k` ones leaves the low `k` bits of a word. -/
theorem toNat_extractLow (w : Word) {k : Nat} (hk : k ≤ 16) :
    (w.extractLsb' 0 k).toNat = (w &&& BitVec.ofNat 16 (2 ^ k - 1)).toNat := by
  have hpow : 2 ^ k ≤ 2 ^ 16 := Nat.pow_le_pow_right (by decide) hk
  have hmask : 2 ^ k - 1 < 2 ^ 16 := by omega
  rw [BitVec.toNat_and, BitVec.toNat_ofNat, Nat.mod_eq_of_lt hmask, Nat.and_two_pow_sub_one_eq_mod,
    BitVec.extractLsb'_toNat, Nat.shiftRight_zero]

/-- Settles O2: the nibbles are the digits of the word, NNN and NN its low 12 and 8 bits; X, Y, N and the kept word are so
by definition. -/
theorem fieldsAreTheBitsOfTheWord : Obligations.FieldsAreTheBitsOfTheWord := fun w =>
  ⟨toNat_eq_nibbles w, toNat_extractLow w (k := 12) (by decide), toNat_extractLow w (k := 8) (by decide),
    rfl, rfl, rfl, rfl⟩

end Sys2Proof
end

section
/-! PROOFS. A word no row of the opcode table fits is unimplemented (spec 30_encoding.md R87, R91). The key fact is the
other direction: a word that decodes fits its instruction's row, since the dispatch reads the nibbles the row's mask keeps. -/

namespace Sys2Proof

/-! ## When a row fits -/

/-- Masking a word masks each of its nibbles. -/
theorem and_nibbles (w : Word) (a x y n : Nibble) :
    w &&& (a ++ x ++ y ++ n) = ((decodeFields w).n1 &&& a) ++ ((decodeFields w).n2 &&& x) ++ ((decodeFields w).n3 &&& y) ++
      ((decodeFields w).n4 &&& n) := by
  conv_lhs => rw [word_eq_nibbles w]
  rw [BitVec.and_append, BitVec.and_append, BitVec.and_append]
  rfl

/-- A row that fixes only the class nibble fits every word of the class. -/
theorem fits_classRow (k : Nat) {w : Word} {c : Nibble} (hc : (decodeFields w).n1 = c) :
    OpcodeRow.fits ⟨k, c ++ 0x0#4 ++ 0x0#4 ++ 0x0#4, 0xF#4 ++ 0x0#4 ++ 0x0#4 ++ 0x0#4⟩ w = true := by
  have hF : c &&& 0xF#4 = c := BitVec.and_allOnes
  simp only [OpcodeRow.fits, and_nibbles, hc, hF, BitVec.and_zero, beq_self_eq_true]

/-- A row that fixes the class nibble and nibble 4 fits every word with these two. -/
theorem fits_classLowRow (k : Nat) {w : Word} {c n : Nibble} (hc : (decodeFields w).n1 = c)
    (hn : (decodeFields w).n4 = n) :
    OpcodeRow.fits ⟨k, c ++ 0x0#4 ++ 0x0#4 ++ n, 0xF#4 ++ 0x0#4 ++ 0x0#4 ++ 0xF#4⟩ w = true := by
  have hF (m : Nibble) : m &&& 0xF#4 = m := BitVec.and_allOnes
  simp only [OpcodeRow.fits, and_nibbles, hc, hn, hF, BitVec.and_zero, beq_self_eq_true]

/-! ## The row of a decoded word -/

/-- A word that decodes fits the table's row of its instruction. -/
theorem exists_row_fits_of_decodeWord {w : Word} {i : Instr} (h : decodeWord w = some i) :
    ∃ r ∈ opcodeTable, r.number = i.row ∧ r.fits w = true := by
  unfold decodeWord dispatch at h
  split at h <;> rename_i hc
  case h_1 => -- class 0: the two rows that fix the whole word
    split at h
    · next hw => cases h; obtain rfl : w = 0x00E0#16 := hw; exact ⟨⟨1, 0x00E0, 0xFFFF⟩, by decide, rfl, rfl⟩
    · split at h
      · next hw => cases h; obtain rfl : w = 0x00EE#16 := hw; exact ⟨⟨2, 0x00EE, 0xFFFF⟩, by decide, rfl, rfl⟩
      · cases h
  case h_6 | h_10 => -- classes 5 and 9: nibble 4 is 0
    split at h
    · next hn => cases h; exact ⟨_, by decide, rfl, fits_classLowRow _ hc hn⟩
    · cases h
  case h_9 => -- class 8: nibble 4 selects the row
    split at h <;> rename_i hn
    case h_6 => cases h
    all_goals cases h; exact ⟨_, by decide, rfl, fits_classLowRow _ hc hn⟩
  case h_13 => cases h -- classes B, C, E and F have no row
  all_goals cases h; exact ⟨_, by decide, rfl, fits_classRow _ hc⟩

/-- If no row fits, the dispatch selects nothing. -/
theorem decodeWord_eq_none_of_no_row_fits {w : Word} (h : ∀ r ∈ opcodeTable, r.fits w = false) :
    decodeWord w = none := by
  refine Option.eq_none_iff_forall_ne_some.2 fun i hi => ?_
  obtain ⟨r, hr, -, hfits⟩ := exists_row_fits_of_decodeWord hi
  exact Bool.false_ne_true ((h r hr).symm.trans hfits)

/-- Settles O10: a word no row fits does not decode, and the step at such a word raises UnimplementedOpcode. -/
theorem unimplementedWordHalts : Obligations.UnimplementedWordHalts := fun _ hr hpc h =>
  Machine.step_unimplemented hr hpc (decodeWord_eq_none_of_no_row_fits h)

end Sys2Proof
end

section
/-! PROOFS. The skips on an immediate (spec 40_flow.md R114, R115). The key fact is about every instruction whose rule is a
skip of the advanced state: it moves PC on by 4 or by 2, as its condition says, and changes nothing else. -/

namespace Sys2Proof

/-- The mask of a row that fixes only the class nibble keeps that nibble: the converse of `fits_classRow`. -/
theorem n1_eq_of_classMask {w : Word} {c : Nibble} (h : w &&& 0xF000#16 = c ++ 0x000#12) : (decodeFields w).n1 = c := by
  have hF : (decodeFields w).n1 &&& 0xF#4 = (decodeFields w).n1 := BitVec.and_allOnes
  calc (decodeFields w).n1
      = (w &&& 0xF000#16).extractLsb' 12 4 := by rw [BitVec.extractLsb'_and]; exact hF.symm
    _ = c := by rw [h, class_of_nnn]

end Sys2Proof

namespace Sys2Proof.Machine

/-- A skip adds 2 to the advanced PC or leaves it there: from the state before the fetch, 4 or 2. -/
theorem advancesBy_skipIf (s : State) (c : Bool) : AdvancesBy (if c then 4 else 2) s (s.advance.skipIf c) := by
  intro hpc
  cases c
  · show (s.pc + 2#16).toNat = s.pc.toNat + 2
    bv_omega
  · show (s.pc + 2#16 + 2#16).toNat = s.pc.toNat + 4
    bv_omega

/-- Advancing and skipping write nothing but PC. -/
theorem keeps_skipIf (s : State) (c : Bool) : Keeps [] s (s.advance.skipIf c) := by
  constructor <;> simp

/-- An instruction whose rule skips if `c` moves PC on by 4 if `c` holds, else by 2, and changes nothing else. -/
theorem exec_skip {i : Instr} {s : State} {c : Bool} (h : instrRule i s.advance = .ok (s.advance.skipIf c)) :
    ∃ t, exec i s = .next t ∧ (c = true → AdvancesBy 4 s t) ∧ (c = false → AdvancesBy 2 s t) ∧ Keeps [] s t := by
  refine ⟨s.advance.skipIf c, (exec_eq_execute i s).trans (execute_ok h), ?_, ?_, keeps_skipIf s c⟩
  · rintro rfl; exact advancesBy_skipIf s true
  · rintro rfl; exact advancesBy_skipIf s false

/-- Settles O28: the class nibble 3 or 4 dispatches to the skip, whose condition is the comparison of V[X] with NN. -/
theorem skipsOnAnImmediate : Obligations.SkipsOnAnImmediate := by
  refine ⟨fun w hw => ?_, fun w hw => ?_, fun x nn s => ?_, fun x nn s => ?_⟩
  · simp only [decodeWord, dispatch, n1_eq_of_classMask (c := 0x3#4) hw]; rfl
  · simp only [decodeWord, dispatch, n1_eq_of_classMask (c := 0x4#4) hw]; rfl
  · simpa only [beq_iff_eq, beq_eq_false_iff_ne] using exec_skip (i := .seImm x nn) (c := s.reg x == nn) rfl
  · simpa only [bne_iff_ne, bne_eq_false_iff_eq] using exec_skip (i := .sneImm x nn) (c := s.reg x != nn) rfl

end Sys2Proof.Machine
end

section
/-! PROOFS. The loads, the immediate addition and the copy (spec 41_alu.md R141, R142, R146). The key fact is about every
instruction whose rule writes one register of the advanced state: it moves PC on by 2 and changes nothing but that register,
and nothing at all but PC where the register held the byte written. -/

namespace Sys2Proof

/-- The mask of a row that fixes the class nibble and nibble 4 keeps these two: the converse of `fits_classLowRow`. -/
theorem n1_n4_eq_of_classLowMask {w : Word} {c n : Nibble} (h : w &&& 0xF00F#16 = c ++ 0x0#4 ++ 0x0#4 ++ n) :
    (decodeFields w).n1 = c ∧ (decodeFields w).n4 = n := by
  have hF (m : Nibble) : m &&& 0xF#4 = m := BitVec.and_allOnes
  have hmask : (decodeFields w).n1 ++ 0x0#4 ++ 0x0#4 ++ (decodeFields w).n4 = c ++ 0x0#4 ++ 0x0#4 ++ n := by
    simpa only [hF, BitVec.and_zero] using (and_nibbles w 0xF#4 0x0#4 0x0#4 0xF#4).symm.trans h
  exact ⟨by simpa only [class_of_xyn] using congrArg (BitVec.extractLsb' 12 4) hmask,
    by simpa only [n_of_xyn] using congrArg (BitVec.extractLsb' 0 4) hmask⟩

end Sys2Proof

namespace Sys2Proof.Machine

/-! ## Writing one register -/

/-- Writing a register leaves PC where the fetch's advance put it. -/
theorem advancesBy_setReg (s : State) (x : RegIdx) (b : Byte) : AdvancesBy 2 s (s.advance.setReg x b) :=
  advancesBy_skipIf s false

theorem keeps_setReg (s : State) (x : RegIdx) (b : Byte) : Keeps [.reg x] s (s.advance.setReg x b) := by
  constructor <;> simp +contextual

/-- Writing the byte a register holds already keeps that register too. -/
theorem keeps_setReg_self (s : State) (x : RegIdx) : Keeps [] s (s.advance.setReg x (s.reg x)) := by
  constructor <;> simp +contextual

/-- An instruction whose rule writes `b` into V[x] completes with V[x] = `b` and PC moved on by 2; it keeps the rest, and keeps
V[x] too if that held `b`. -/
theorem exec_setReg {i : Instr} {s : State} {x : RegIdx} {b : Byte}
    (h : instrRule i s.advance = .ok (s.advance.setReg x b)) :
    ∃ t, exec i s = .next t ∧ t.reg x = b ∧ AdvancesBy 2 s t ∧ Keeps [.reg x] s t ∧ (b = s.reg x → Keeps [] s t) := by
  refine ⟨s.advance.setReg x b, (exec_eq_execute i s).trans (execute_ok h), by simp, advancesBy_setReg s x b,
    keeps_setReg s x b, ?_⟩
  rintro rfl
  exact keeps_setReg_self s x

/-! ## The three instructions -/

/-- Settles O30: the class nibble 6 dispatches to the load, whose rule writes NN into V[X]. -/
theorem loadImmediateSetsTheRegister : Obligations.LoadImmediateSetsTheRegister := by
  refine ⟨fun w hw => ?_, fun x nn s => ?_⟩
  · simp only [decodeWord, dispatch, n1_eq_of_classMask (c := 0x6#4) hw]; rfl
  · obtain ⟨t, ht, hx, hpc, hkeeps, -⟩ := exec_setReg (i := .ldImm x nn) (s := s) rfl
    exact ⟨t, ht, hx, hpc, hkeeps⟩

/-- Settles O31: the class nibble 7 dispatches to the addition, whose rule writes the adder's byte, the sum mod 256, into V[X]
and nothing into VF. -/
theorem addImmediateWrapsAndSetsNoCarry : Obligations.AddImmediateWrapsAndSetsNoCarry := by
  refine ⟨fun w hw => ?_, fun x nn s => ?_⟩
  · simp only [decodeWord, dispatch, n1_eq_of_classMask (c := 0x7#4) hw]; rfl
  · obtain ⟨t, ht, hx, hpc, hkeeps, -⟩ := exec_setReg (i := .addImm x nn) (s := s) rfl
    exact ⟨t, ht, hx ▸ aluAdd_toNat (s.reg x) nn, hpc, hkeeps⟩

/-- Settles O32: the class nibble 8 with nibble 4 = 0 dispatches to the copy, whose rule writes V[Y], whatever the ALU_MODE, into
V[X]; with X = Y that is the byte V[X] holds. -/
theorem copyRegisterCopies : Obligations.CopyRegisterCopies := by
  refine ⟨fun w hw => ?_, fun x y s => ?_⟩
  · obtain ⟨hclass, hlow⟩ := n1_n4_eq_of_classLowMask (c := 0x8#4) (n := 0x0#4) hw
    simp only [decodeWord, dispatch, hclass, hlow]; rfl
  · obtain ⟨t, ht, hx, hpc, hkeeps, hself⟩ := exec_setReg (i := .ldReg x y) (s := s) rfl
    exact ⟨t, ht, hx, hpc, hkeeps, fun hxy => hself (hxy ▸ rfl)⟩

end Sys2Proof.Machine
end

section
/-! PROOFS. The display and the rest of the state (spec 43_display.md R190). The key fact is that replacing the display
commutes with every instruction but 00E0 and DXYN: that such an instruction keeps every pixel follows from it, and so does
that no pixel reaches what it writes. -/

namespace Sys2Proof.Machine

/-! ## A change of state that commutes with an instruction -/

/-- A change of state that leaves the fetch's advance and the raising of an error alone, and commutes with an instruction's
rule, commutes with the instruction. -/
theorem exec_commutes {f : State → State} {i : Instr} {s : State} (hadvance : (f s).advance = f s.advance)
    (hraise : ∀ w e, raise (f s) w e = f (raise s w e))
    (hrule : instrRule i (f s.advance) = (instrRule i s.advance).map f) :
    ∃ t, exec i s = .next t ∧ exec i (f s) = .next (f t) := by
  simp only [exec_eq_execute]
  obtain ⟨t, ht, hs⟩ | ⟨e, he, hs⟩ := execute_cases i s (instrRule i)
  · exact ⟨t, hs, execute_ok (by rw [hadvance, hrule, ht]; rfl)⟩
  · exact ⟨_, hs, (execute_error (by rw [hadvance, hrule, he]; rfl)).trans (congrArg _ (hraise _ e))⟩

/-! ## Replacing the display -/

theorem State.skipIf_setDisp (s : State) (d : Display) (c : Bool) :
    (s.setDisp d).skipIf c = (s.skipIf c).setDisp d := by
  cases c <;> rfl

/-- The sprite is read from memory at I, so not from the display. -/
theorem spriteRows_setDisp (s : State) (d : Display) (n : Nibble) : spriteRows (s.setDisp d) n = spriteRows s n := rfl

/-- No rule but those of 00E0 and DXYN reads the display or writes it. -/
theorem instrRule_setDisp {i : Instr} (s : State) (d : Display) (hcls : i ≠ .cls) (hdrw : ∀ x y n, i ≠ .drw x y n) :
    instrRule i (s.setDisp d) = (instrRule i s).map (State.setDisp · d) := by
  cases i with
  | cls => exact absurd rfl hcls
  | drw x y n => exact absurd rfl (hdrw x y n)
  | ret =>
    cases h : s.stack with
    | nil => simp only [instrRule, popPc_empty _ h, popPc_empty (s.setDisp d) h]; rfl
    | cons top rest => simp only [instrRule, popPc_cons _ h, popPc_cons (s.setDisp d) h]; rfl
  | call nnn =>
    by_cases h : s.stack.length = s.params.stackDepth
    · simp only [instrRule, pushPc_full _ h, pushPc_full (s.setDisp d) h]; rfl
    · simp only [instrRule, pushPc_room _ h, pushPc_room (s.setDisp d) h]; rfl
  | seImm | sneImm | seReg | sneReg => exact congrArg Except.ok (State.skipIf_setDisp s d _)
  | jp | ldImm | addImm | ldReg | orReg | andReg | xorReg | addReg | ldI => rfl

theorem exec_setDisp {i : Instr} (s : State) (d : Display) (hcls : i ≠ .cls) (hdrw : ∀ x y n, i ≠ .drw x y n) :
    ∃ t, exec i s = .next t ∧ exec i (s.setDisp d) = .next (t.setDisp d) :=
  exec_commutes (f := (State.setDisp · d)) rfl (fun _ _ => rfl) (instrRule_setDisp s.advance d hcls hdrw)

/-- An instruction but 00E0 and DXYN keeps the display: replacing it by itself changes nothing, before or after. -/
theorem exec_disp {i : Instr} {s t : State} (h : exec i s = .next t) (hcls : i ≠ .cls) (hdrw : ∀ x y n, i ≠ .drw x y n) :
    t.disp = s.disp := by
  obtain ⟨u, -, hu⟩ := exec_setDisp s s.disp hcls hdrw
  obtain rfl : t = u.setDisp s.disp := by injection h.symm.trans hu
  rfl

/-! ## Two runs that differ only in the display -/

/-- What the two next states of `i` agree on, when the states before it differ only in the display. -/
def AgreeOffDisplay (i : Instr) (t t' : State) : Prop :=
  (∀ r : RegIdx, (r = vf ∧ ∃ x y n, i = .drw x y n) ∨ t'.reg r = t.reg r) ∧ (∀ a : Nat, t'.peek a = t.peek a) ∧
    t'.i = t.i ∧ t'.pc = t.pc ∧ t'.stack = t.stack ∧ t'.dt = t.dt ∧ t'.status = t.status

theorem agreeOffDisplay_setDisp (i : Instr) (t : State) (d : Display) : AgreeOffDisplay i t (t.setDisp d) :=
  ⟨fun _ => .inr rfl, fun _ => rfl, rfl, rfl, rfl, rfl, rfl⟩

/-- DXYN writes its collision flag to VF only, so two flags, beside two displays, leave the rest equal. -/
theorem agreeOffDisplay_writeCollision (x y : RegIdx) (n : Nibble) (s : State) (d d' : Display) (c c' : Bool) :
    AgreeOffDisplay (.drw x y n) (writeCollision (s.setDisp d) c) (writeCollision (s.setDisp d') c') := by
  refine ⟨fun r => ?_, by simp⟩
  by_cases hr : r = vf
  · exact .inl ⟨hr, x, y, n, rfl⟩
  · exact .inr (by simp [hr])

/-- DXYN on two displays reads the same rows: it raises the same error, or draws and writes its flag on both. -/
theorem exec_drw_agreeOffDisplay (x y : RegIdx) (n : Nibble) (s : State) (d : Display) :
    ∃ t t', exec (.drw x y n) s = .next t ∧ exec (.drw x y n) (s.setDisp d) = .next t' ∧
      AgreeOffDisplay (.drw x y n) t t' := by
  have hsame : spriteRows (s.setDisp d).advance n = spriteRows s.advance n := spriteRows_setDisp s.advance d n
  simp only [exec_eq_execute]
  cases hrows : spriteRows s.advance n with
  | error e =>
    exact ⟨_, _, execute_error (by rw [instrRule, hrows]; rfl), execute_error (by rw [instrRule, hsame, hrows]; rfl),
      agreeOffDisplay_setDisp _ _ d⟩
  | ok rows =>
    exact ⟨_, _, execute_ok (by rw [instrRule, hrows]; rfl), execute_ok (by rw [instrRule, hsame, hrows]; rfl),
      agreeOffDisplay_writeCollision x y n s.advance _ _ _ _⟩

/-- 00E0 overwrites the display, so that both runs end in one state; every instruction but DXYN commutes with replacing it. -/
theorem exec_agreeOffDisplay (i : Instr) (s : State) (d : Display) :
    ∃ t t', exec i s = .next t ∧ exec i (s.setDisp d) = .next t' ∧ AgreeOffDisplay i t t' := by
  by_cases hcls : i = .cls
  · subst hcls
    exact ⟨_, _, rfl, rfl, agreeOffDisplay_setDisp .cls (s.advance.setDisp Display.clear) Display.clear⟩
  · by_cases hdrw : ∃ x y n, i = .drw x y n
    · obtain ⟨x, y, n, rfl⟩ := hdrw
      exact exec_drw_agreeOffDisplay x y n s d
    · obtain ⟨t, ht, ht'⟩ := exec_setDisp s d hcls fun x y n hi => hdrw ⟨x, y, n, hi⟩
      exact ⟨t, t.setDisp d, ht, ht', agreeOffDisplay_setDisp i t d⟩

/-- Settles O21: an instruction but 00E0 and DXYN commutes with replacing the display, so it keeps every pixel; 00E0 ignores
the old display, and DXYN lets it into the collision flag only. -/
theorem displayIsTouchedOnlyByClsAndDrw : Obligations.DisplayIsTouchedOnlyByClsAndDrw :=
  ⟨fun _ _ _ h hcls hdrw _ _ => by rw [exec_disp h hcls hdrw], exec_agreeOffDisplay⟩

end Sys2Proof.Machine
end

section
/-! PROOFS. 00E0 (spec 43_display.md R180): the one word that decodes to it, and the clear display it leaves. -/

namespace Sys2Proof

/-- The row of 00E0 fixes every bit, so no other word decodes to it. -/
theorem decodeWord_eq_cls_iff (w : Word) : decodeWord w = some .cls ↔ w = 0x00E0#16 := by
  constructor
  · intro h
    obtain ⟨r, hr, hnumber, hfits⟩ := exists_row_fits_of_decodeWord h
    have hrow : ∀ r ∈ opcodeTable, r.number = Instr.cls.row → r = ⟨1, 0x00E0, 0xFFFF⟩ := by decide
    obtain rfl := hrow r hr hnumber
    have hmask : w &&& 0xFFFF#16 = w := BitVec.and_allOnes
    exact hmask.symm.trans (beq_iff_eq.1 hfits)
  · rintro rfl
    decide

end Sys2Proof

namespace Sys2Proof.Machine

theorem exec_cls (s : State) : exec .cls s = .next (s.advance.setDisp Display.clear) := rfl

/-- A snapshot of a clear display is 32 rows of 64 zeros. -/
theorem displaySnapshot_clear (s : State) : displaySnapshot (s.setDisp Display.clear) = List.replicate 2048 false := by
  simp [displaySnapshot, Display.clear]

/-- Replacing the display leaves PC where the fetch's advance put it. -/
theorem advancesBy_setDisp (s : State) (d : Display) : AdvancesBy 2 s (s.advance.setDisp d) :=
  advancesBy_skipIf s false

theorem keeps_setDisp (s : State) (d : Display) : Keeps [.display] s (s.advance.setDisp d) := by
  constructor <;> simp

/-- Replacing the display by one with the same pixels keeps the display too. -/
theorem keeps_setDisp_of_pixel_eq {s : State} {d : Display}
    (h : ∀ x y : Nat, Display.pixel d x y = Display.pixel s.disp x y) : Keeps [] s (s.advance.setDisp d) := by
  constructor <;> simp [h]

/-- Settles O36: the row of 00E0 fixes the whole word, and its rule replaces the display by the clear one. -/
theorem clearScreenClearsEveryPixel : Obligations.ClearScreenClearsEveryPixel := by
  refine ⟨decodeWord_eq_cls_iff, fun s => ⟨_, exec_cls s, Display.pixel_clear, displaySnapshot_clear s.advance,
    advancesBy_setDisp s _, keeps_setDisp s _, fun hclear => keeps_setDisp_of_pixel_eq fun x y => ?_⟩⟩
  rw [Display.pixel_clear, hclear]

end Sys2Proof.Machine
end

section
/-! PROOFS. The font preload (spec 70_reset_and_hazards.md R241). The key fact is that Reset leaves memory reading as the
background, which is FONT below 80; a row of a glyph is such an address. -/

namespace Sys2Proof.Machine

/-- Inside the font area the background is FONT. -/
theorem background_eq_font (c : Config) {a : Nat} (h : a < 80) : background c a = c.font[a] := dif_pos h

theorem hostReset_peek (s : State) (a : Nat) : (hostReset s).peek a = background s.params a :=
  State.resetWith_peek s.params a

theorem hostReset_peek_font (s : State) {a : Nat} (h : a < 80) : (hostReset s).peek a = s.params.font[a] :=
  (hostReset_peek s a).trans (background_eq_font s.params h)

/-- Settles O42: after Reset a byte of the font area reads as FONT, and the rows of the 16 glyphs lie in that area. -/
theorem fontIsPreloadedAtZero : Obligations.FontIsPreloadedAtZero := by
  refine fun s => ⟨fun k hk => ?_, fun g r hg hr => ?_⟩
  · rw [Nat.zero_add]
    exact hostReset_peek_font s hk
  · have hrow : 5 * g + r < 80 := by omega
    exact hostReset_peek_font s hrow

end Sys2Proof.Machine
end

section
/-! PROOFS. The decoder and the encoder are inverse to each other, and the opcode table's rows are disjoint (spec
30_encoding.md R87, R88). The key facts: an instruction's word has its operands where the dispatch reads them, and two rows
that fit one word agree on the bits both of them fix. -/

namespace Sys2Proof

/-! ## Decoding an encoding -/

/-- The dispatch finds the class, the operands and, where the row fixes it, nibble 4 where the encoder put them. -/
theorem decodeWord_encode (i : Instr) : decodeWord (encode i) = some i := by
  cases i with
  | cls | ret => decide
  | jp | call | ldI => simp [encode, decodeWord, decodeFields, dispatch]
  | seImm | sneImm | ldImm | addImm => simp [encode, decodeWord, decodeFields, dispatch, Fields.x]
  | seReg | ldReg | orReg | andReg | xorReg | addReg | sneReg =>
    simp [encode, decodeWord, decodeFields, dispatch, Fields.x, Fields.y]
  | drw => simp [encode, decodeWord, decodeFields, dispatch, Fields.x, Fields.y, Fields.n]

/-- Settles O4: the two bytes put together are the encoding, which decodes to the instruction; the rest is left over. -/
theorem decodeOfEncodeIsTheInstruction : Obligations.DecodeOfEncodeIsTheInstruction := by
  intro i rest
  simp [encodeBytes, bytesOfWord, decode, decodeWord_encode]

/-! ## A word put together from its fields -/

section
variable {w : Word} {c n : Nibble}

theorem class_append_nnn (hc : (decodeFields w).n1 = c) : c ++ (decodeFields w).nnn = w := by
  subst hc
  apply BitVec.eq_of_getLsbD_eq; intro i hi; simp [decodeFields]; grind

theorem class_append_x_nn (hc : (decodeFields w).n1 = c) : c ++ (decodeFields w).n2 ++ (decodeFields w).nn = w := by
  subst hc
  apply BitVec.eq_of_getLsbD_eq; intro i hi; simp [decodeFields]; grind

theorem class_append_x_y_n (hc : (decodeFields w).n1 = c) (hn : (decodeFields w).n4 = n) :
    c ++ (decodeFields w).n2 ++ (decodeFields w).n3 ++ n = w := by
  subst hc hn
  exact (word_eq_nibbles w).symm

end

/-- The encoder puts back the nibbles the dispatch read: the class and nibble 4 it compared, and the operands. -/
theorem encode_of_decodeWord {w : Word} {i : Instr} (h : decodeWord w = some i) : encode i = w := by
  unfold decodeWord dispatch at h
  split at h <;> rename_i hc
  case h_1 => -- class 0: the whole word is compared
    split at h
    · next hw => cases h; exact hw.symm
    · split at h
      · next hw => cases h; exact hw.symm
      · cases h
  case h_2 | h_3 | h_11 => cases h; exact class_append_nnn hc -- classes 1, 2 and A
  case h_6 | h_10 => -- classes 5 and 9
    split at h
    · next hn => cases h; exact class_append_x_y_n hc hn
    · cases h
  case h_9 => -- class 8
    split at h <;> rename_i hn
    case h_6 => cases h
    all_goals cases h; exact class_append_x_y_n hc hn
  case h_12 => cases h; exact class_append_x_y_n hc rfl -- class D
  case h_13 => cases h -- classes B, C, E and F have no row
  all_goals cases h; exact class_append_x_nn hc -- classes 3, 4, 6 and 7

/-- Settles O5: the encoder puts back what the dispatch read. -/
theorem encodeOfDecodeIsTheWord : Obligations.EncodeOfDecodeIsTheWord := fun _ _ h => encode_of_decodeWord h

/-! ## The rows of the table -/

/-- Only one instruction encodes to a word, and the word decodes to it. -/
theorem decodeWord_eq_some_iff {w : Word} {i : Instr} : decodeWord w = some i ↔ encode i = w :=
  ⟨encode_of_decodeWord, fun h => h ▸ decodeWord_encode i⟩

section
variable {w : Word} {c n : Nibble} {i : Instr}

theorem decodeWord_of_nnnRow (hi : encode i = c ++ (decodeFields w).nnn) (h : w &&& 0xF000#16 = c ++ 0x000#12) :
    decodeWord w = some i :=
  decodeWord_eq_some_iff.2 (hi.trans (class_append_nnn (n1_eq_of_classMask h)))

theorem decodeWord_of_xnnRow (hi : encode i = c ++ (decodeFields w).n2 ++ (decodeFields w).nn)
    (h : w &&& 0xF000#16 = c ++ 0x000#12) : decodeWord w = some i :=
  decodeWord_eq_some_iff.2 (hi.trans (class_append_x_nn (n1_eq_of_classMask h)))

theorem decodeWord_of_xynRow (hi : encode i = c ++ (decodeFields w).n2 ++ (decodeFields w).n3 ++ (decodeFields w).n4)
    (h : w &&& 0xF000#16 = c ++ 0x000#12) : decodeWord w = some i :=
  decodeWord_eq_some_iff.2 (hi.trans (class_append_x_y_n (n1_eq_of_classMask h) rfl))

theorem decodeWord_of_xyRow (hi : encode i = c ++ (decodeFields w).n2 ++ (decodeFields w).n3 ++ n)
    (h : w &&& 0xF00F#16 = c ++ 0x0#4 ++ 0x0#4 ++ n) : decodeWord w = some i := by
  obtain ⟨hc, hn⟩ := n1_n4_eq_of_classLowMask h
  exact decodeWord_eq_some_iff.2 (hi.trans (class_append_x_y_n hc hn))

end

/-- Settles O3: a word that fits a row is the encoding of the row's instruction with the word's own fields. -/
theorem everyRowDecodesWithItsFields : Obligations.EveryRowDecodesWithItsFields := by
  intro w
  have hall : w &&& 0xFFFF#16 = w := BitVec.and_allOnes
  exact ⟨fun h => decodeWord_eq_some_iff.2 (h.symm.trans hall), fun h => decodeWord_eq_some_iff.2 (h.symm.trans hall),
    decodeWord_of_nnnRow (c := 0x1#4) rfl, decodeWord_of_nnnRow (c := 0x2#4) rfl, decodeWord_of_xnnRow (c := 0x3#4) rfl,
    decodeWord_of_xnnRow (c := 0x4#4) rfl, decodeWord_of_xyRow (c := 0x5#4) (n := 0x0#4) rfl,
    decodeWord_of_xnnRow (c := 0x6#4) rfl, decodeWord_of_xnnRow (c := 0x7#4) rfl,
    decodeWord_of_xyRow (c := 0x8#4) (n := 0x0#4) rfl, decodeWord_of_xyRow (c := 0x8#4) (n := 0x1#4) rfl,
    decodeWord_of_xyRow (c := 0x8#4) (n := 0x2#4) rfl, decodeWord_of_xyRow (c := 0x8#4) (n := 0x3#4) rfl,
    decodeWord_of_xyRow (c := 0x8#4) (n := 0x4#4) rfl, decodeWord_of_xyRow (c := 0x9#4) (n := 0x0#4) rfl,
    decodeWord_of_nnnRow (c := 0xA#4) rfl, decodeWord_of_xynRow (c := 0xD#4) rfl⟩

/-- Two rows that fit one word agree on the bits that both fix, and no two rows of the table do. -/
theorem row_eq_of_fits {w : Word} {r r' : OpcodeRow} (hr : r ∈ opcodeTable) (hr' : r' ∈ opcodeTable)
    (h : r.fits w = true) (h' : r'.fits w = true) : r = r' := by
  have hdisjoint : ∀ r ∈ opcodeTable, ∀ r' ∈ opcodeTable, r.fixed &&& r'.mask = r'.fixed &&& r.mask → r = r' := by decide
  have hw : w &&& r.mask = r.fixed := beq_iff_eq.1 h
  have hw' : w &&& r'.mask = r'.fixed := beq_iff_eq.1 h'
  refine hdisjoint r hr r' hr' ?_
  rw [← hw, ← hw', BitVec.and_assoc, BitVec.and_assoc, BitVec.and_comm r.mask]

/-- A word that fits a row of the table decodes. -/
theorem exists_decodeWord_of_fits {w : Word} : ∀ r ∈ opcodeTable, r.fits w = true → ∃ i, decodeWord w = some i := by
  obtain ⟨h1, h2, h3, h4, h5, h6, h7, h8, h9, h10, h11, h12, h13, h14, h15, h16, h17⟩ := everyRowDecodesWithItsFields w
  simp only [opcodeTable, OpcodeRow.fits, beq_iff_eq, List.forall_mem_cons, List.not_mem_nil, false_implies, implies_true,
    and_true]
  exact ⟨fun h => ⟨_, h1 h⟩, fun h => ⟨_, h2 h⟩, fun h => ⟨_, h3 h⟩, fun h => ⟨_, h4 h⟩, fun h => ⟨_, h5 h⟩,
    fun h => ⟨_, h6 h⟩, fun h => ⟨_, h7 h⟩, fun h => ⟨_, h8 h⟩, fun h => ⟨_, h9 h⟩, fun h => ⟨_, h10 h⟩,
    fun h => ⟨_, h11 h⟩, fun h => ⟨_, h12 h⟩, fun h => ⟨_, h13 h⟩, fun h => ⟨_, h14 h⟩, fun h => ⟨_, h15 h⟩,
    fun h => ⟨_, h16 h⟩, fun h => ⟨_, h17 h⟩⟩

/-- A row of the table fits exactly the words that decode to its instruction. -/
theorem fits_iff_row_eq {w : Word} {r : OpcodeRow} (hr : r ∈ opcodeTable) :
    r.fits w = true ↔ (decodeWord w).map Instr.row = some r.number := by
  constructor
  · intro h
    obtain ⟨i, hi⟩ := exists_decodeWord_of_fits r hr h
    obtain ⟨r', hr', hnumber, h'⟩ := exists_row_fits_of_decodeWord hi
    rw [hi, row_eq_of_fits hr hr' h h', hnumber, Option.map_some]
  · intro h
    obtain ⟨i, hi, hrow⟩ := Option.map_eq_some_iff.1 h
    obtain ⟨r', hr', hnumber, h'⟩ := exists_row_fits_of_decodeWord hi
    have hnumbers : ∀ r ∈ opcodeTable, ∀ r' ∈ opcodeTable, r'.number = r.number → r' = r := by decide
    exact hnumbers r hr r' hr' (hnumber.trans hrow) ▸ h'

/-- Settles O6: two fitting rows agree where both fix a bit, so they are one; the dispatch selects it, and nothing if there
is none. -/
theorem dispatchSelectsTheOneFittingRow : Obligations.DispatchSelectsTheOneFittingRow := by
  refine fun w => ⟨fun r hr r' hr' => row_eq_of_fits hr hr', fun r hr => fits_iff_row_eq hr,
    fun h r hr => ?_, decodeWord_eq_none_of_no_row_fits⟩
  rw [Bool.eq_false_iff, Ne, fits_iff_row_eq hr, h]
  simp

/-- Settles O1: each of the twenty words is evaluated. -/
theorem decodesWordsWrittenFromTheTable : Obligations.DecodesWordsWrittenFromTheTable := by
  unfold Obligations.DecodesWordsWrittenFromTheTable
  decide

end Sys2Proof
end

section
/-! PROOFS. Listings (spec 30_encoding.md R94, R95). The key facts: the line of an instruction stands for it, and a line with
nothing wrong has a word. -/

namespace Sys2Proof.Machine

/-- The line R94 writes for an instruction is well formed and stands for that instruction. -/
theorem listingForm (i : Instr) : Laws.ListingForm.Statement i := by
  cases i with
  | cls => exact Laws.ListingForm.cls
  | ret => exact Laws.ListingForm.ret
  | jp nnn => exact Laws.ListingForm.jp nnn
  | call nnn => exact Laws.ListingForm.call nnn
  | seImm x nn => exact Laws.ListingForm.seImm x nn
  | sneImm x nn => exact Laws.ListingForm.sneImm x nn
  | seReg x y => exact Laws.ListingForm.seReg x y
  | ldImm x nn => exact Laws.ListingForm.ldImm x nn
  | addImm x nn => exact Laws.ListingForm.addImm x nn
  | ldReg x y => exact Laws.ListingForm.ldReg x y
  | orReg x y => exact Laws.ListingForm.orReg x y
  | andReg x y => exact Laws.ListingForm.andReg x y
  | xorReg x y => exact Laws.ListingForm.xorReg x y
  | addReg x y => exact Laws.ListingForm.addReg x y
  | sneReg x y => exact Laws.ListingForm.sneReg x y
  | ldI nnn => exact Laws.ListingForm.ldI nnn
  | drw x y n => exact Laws.ListingForm.drw x y n

/-- A line that stands for an instruction has the instruction's encoding as its word. -/
theorem wordOfLine_of_instrOfLine {l : Line} {i : Instr} (h : instrOfLine l = some i) : wordOfLine l = some (encode i) := by
  cases l with
  | dw w => cases h
  | stmt m ops => simp [wordOfLine, h]

/-- Every line with nothing wrong has a word: R94 gives each form that is checked an instruction. -/
theorem exists_wordOfLine {l : Line} (h : l.check = none) : ∃ w, wordOfLine l = some w := by
  unfold Line.check at h
  split at h
  case h_19 => cases h
  all_goals exact ⟨_, rfl⟩

theorem assembleLine_wf {l : Line} {w : Word} (h : l.check = none) (hw : wordOfLine l = some w) :
    assembleLine l = .ok w := by
  simp [assembleLine, h, hw]

theorem assemble_singleton {l : Line} {w : Word} (h : assembleLine l = .ok w) : assemble [l] = .ok (bytesOfWord w) := by
  simp [assemble, h]

/-- Settles O7: a line is refused with what its check finds, and has a word if the check finds nothing; the line of an
instruction has its encoding as word, DW its raw word. -/
theorem listingAssemblesToTheEncoding : Obligations.ListingAssemblesToTheEncoding := by
  refine ⟨fun i => ?_, fun w => ?_, fun l hl => ?_, fun l hl => ?_⟩
  · obtain ⟨hwf, hline⟩ := listingForm i
    exact assemble_singleton (assembleLine_wf (Option.isNone_iff_eq_none.1 hwf) (wordOfLine_of_instrOfLine hline))
  · have hword : wordOfLine (.dw w.toNat) = some w := by simp [wordOfLine]
    exact assemble_singleton (assembleLine_wf (Laws.ListingForm.checkImm_ok 16 w) hword)
  · obtain ⟨e, he⟩ := Option.isSome_iff_exists.1 (Option.isNone_eq_false_iff.1 hl)
    exact ⟨e, by simp [assembleLine, he]⟩
  · have hcheck := Option.isNone_iff_eq_none.1 hl
    obtain ⟨w, hw⟩ := exists_wordOfLine hcheck
    exact ⟨w, assembleLine_wf hcheck hw⟩

end Sys2Proof.Machine
end

section
/-! PROOFS. What an instruction does (spec 10_state.md R21 to R31, 60_exceptions.md R214, R216), said once: its own check fails,
and it raises the check's error on the state before the fetch; or the check passes, and it writes only its own parts and PC as
R26's table says. Which instructions write a part follows from their lists of parts. -/

namespace Sys2Proof.Machine

/-! ## The instruction's own check -/

theorem checkOf_ret_eq_none_iff {s : State} : checkOf s .ret = none ↔ s.stack ≠ [] := by simp [checkOf]

theorem checkOf_call_eq_none_iff {s : State} {nnn : Addr12} :
    checkOf s (.call nnn) = none ↔ s.stack.length ≠ s.params.stackDepth := by simp [checkOf]

theorem checkOf_drw_eq_none_iff {s : State} {x y : RegIdx} {n : Nibble} :
    checkOf s (.drw x y n) = none ↔ n.toNat = 0 ∨ s.i.toNat + n.toNat - 1 < 4096 := by
  simp only [checkOf, ite_eq_right_iff, reduceCtorEq, imp_false]
  omega

/-- Where the check fails, the instruction's rule raises the check's error. -/
theorem instrRule_of_check_some {i : Instr} {s : State} {e : StepError} (h : checkOf s i = some e) :
    instrRule i s.advance = .error e := by
  cases i with
  | ret =>
    obtain ⟨hempty, he⟩ := Option.ite_none_right_eq_some.1 h
    cases he
    exact popPc_empty s.advance hempty
  | call nnn =>
    obtain ⟨hfull, he⟩ := Option.ite_none_right_eq_some.1 h
    cases he
    rw [instrRule, pushPc_full s.advance hfull]; rfl
  | drw x y n =>
    obtain ⟨hrow, he⟩ := Option.ite_none_right_eq_some.1 h
    cases he
    rw [instrRule, spriteRows_invalid s.advance n hrow]; rfl
  | _ => cases h

theorem exec_of_check_some {i : Instr} {s : State} {e : StepError} (h : checkOf s i = some e) :
    exec i s = .next (raise s (some (encode i)) e) :=
  (exec_eq_execute i s).trans (execute_error (instrRule_of_check_some h))

/-! ## The instructions with a check, where it passes -/

theorem exec_ret_of_cons {s : State} {top : Word} {rest : List Word} (h : s.stack = top :: rest) :
    exec .ret s = .next ((s.advance.setStack rest).setPc top) :=
  execute_ok (popPc_cons s.advance h)

theorem exec_call_of_room {s : State} (nnn : Addr12) (h : s.stack.length ≠ s.params.stackDepth) :
    exec (.call nnn) s = .next ((s.advance.setStack ((s.pc + 2#16) :: s.stack)).setPc (zext16 nnn)) :=
  (exec_eq_execute _ s).trans (execute_ok (by rw [instrRule, pushPc_room s.advance h]; rfl))

/-- The display and the collision of DXYN (43_display.md R183): the `n` rows at I, drawn from (V[x], V[y]). -/
def State.draw (s : State) (x y : RegIdx) (n : Nibble) : Display × Bool :=
  drawSprite (s.reg x).toNat (s.reg y).toNat ((List.range n.toNat).map fun r => s.peek (s.i.toNat + r)) s.disp

/-- The state DXYN leaves if its rows can be read. -/
def State.drawn (s : State) (x y : RegIdx) (n : Nibble) : State :=
  writeCollision (s.advance.setDisp (s.draw x y n).1) (s.draw x y n).2

theorem exec_drw_of_readable {s : State} {x y : RegIdx} {n : Nibble} (h : checkOf s (.drw x y n) = none) :
    exec (.drw x y n) s = .next (s.drawn x y n) := by
  have hrows := spriteRows_valid s.advance n fun hrow => Option.some_ne_none _ ((if_pos hrow).symm.trans h)
  exact (exec_eq_execute _ s).trans (execute_ok (by rw [instrRule, hrows]; rfl))

/-! ## What an instruction writes -/

@[simp] theorem mem_collisionParts {c : Config} {p : Part} :
    p ∈ collisionParts c ↔ c.collisionMode = .standard ∧ p = .reg vf := by
  unfold collisionParts
  split <;> simp [*]

theorem keeps_drawn (s : State) (x y : RegIdx) (n : Nibble) :
    Keeps (.display :: collisionParts s.params) s (s.drawn x y n) := by
  constructor
  case regs =>
    intro r hr
    have hkept : ¬(s.params.collisionMode = .standard ∧ r = vf) := by simpa using hr
    simp [State.drawn, hkept]
  all_goals simp [State.drawn]

/-- An instruction whose check passes writes only its parts, and PC as R26's table says. -/
theorem exec_of_check_none {i : Instr} {s : State} (h : checkOf s i = none) :
    ∃ t, exec i s = .next t ∧ Keeps (writtenParts s.params i) s t ∧ t.pc = pcAfter s i := by
  cases i with
  | cls => exact ⟨_, rfl, keeps_setDisp s _, rfl⟩
  | ret =>
    obtain ⟨top, rest, hs⟩ := List.exists_cons_of_ne_nil (checkOf_ret_eq_none_iff.1 h)
    exact ⟨_, exec_ret_of_cons hs, by constructor <;> simp [writtenParts], by simp [pcAfter, hs]⟩
  | call nnn =>
    exact ⟨_, exec_call_of_room nnn (checkOf_call_eq_none_iff.1 h), by constructor <;> simp [writtenParts], rfl⟩
  | jp => exact ⟨_, rfl, by constructor <;> simp, rfl⟩
  | seImm | sneImm | seReg | sneReg => exact ⟨_, rfl, keeps_skipIf s _, by simp [pcAfter, BitVec.add_assoc]⟩
  | ldImm | addImm | ldReg | orReg | andReg | xorReg => exact ⟨_, rfl, keeps_setReg s _ _, rfl⟩
  | addReg => exact ⟨_, rfl, by constructor <;> simp +contextual [writtenParts], rfl⟩
  | ldI => exact ⟨_, rfl, by constructor <;> simp [writtenParts], rfl⟩
  | drw x y n => exact ⟨_, exec_drw_of_readable h, keeps_drawn s x y n, by simp [State.drawn, pcAfter]⟩

/-- Everything an instruction can do. -/
theorem exec_cases (i : Instr) (s : State) :
    (∃ e, checkOf s i = some e ∧ exec i s = .next (raise s (some (encode i)) e)) ∨
      (∃ t, checkOf s i = none ∧ exec i s = .next t ∧ Keeps (writtenParts s.params i) s t ∧ t.pc = pcAfter s i) := by
  cases h : checkOf s i with
  | some e => exact .inl ⟨e, rfl, exec_of_check_some h⟩
  | none =>
    obtain ⟨t, ht⟩ := exec_of_check_none h
    exact .inr ⟨t, rfl, ht⟩

theorem exec_completes (i : Instr) (s : State) : ∃ t, exec i s = .next t := by
  obtain ⟨e, -, h⟩ | ⟨t, -, h, -⟩ := exec_cases i s
  · exact ⟨_, h⟩
  · exact ⟨t, h⟩

/-- Settles O14: the rule raises its check's error on the state before the fetch. -/
theorem failedCheckRestoresTheState : Obligations.FailedCheckRestoresTheState := fun _ _ _ h => exec_of_check_some h

/-- Settles O15: case by case, the parts each rule writes. -/
theorem frameOfEveryInstruction : Obligations.FrameOfEveryInstruction := by
  intro i s h
  obtain ⟨t, ht, hkeeps, -⟩ := exec_of_check_none h
  exact ⟨t, ht, hkeeps⟩

/-- Settles O16: where the check passes PC is the rule's, and raising keeps PC. -/
theorem pcAfterEveryInstruction : Obligations.PcAfterEveryInstruction := by
  intro i s
  obtain ⟨e, hcheck, h⟩ | ⟨t, hcheck, h, -, hpc⟩ := exec_cases i s
  · exact ⟨_, h, by simp [hcheck], fun _ => rfl⟩
  · exact ⟨t, h, fun _ => hpc, fun hne => absurd hcheck hne⟩

/-! ## Which instructions write a part -/

theorem index_mem_writtenParts_iff {c : Config} {i : Instr} : Part.index ∈ writtenParts c i ↔ ∃ nnn, i = .ldI nnn := by
  cases i <;> simp [writtenParts]

theorem stack_mem_writtenParts_iff {c : Config} {i : Instr} :
    Part.stack ∈ writtenParts c i ↔ i = .ret ∨ ∃ nnn, i = .call nnn := by
  cases i <;> simp [writtenParts]

theorem exec_index {i : Instr} {s t : State} (h : exec i s = .next t) (hi : ∀ nnn, i ≠ .ldI nnn) : t.i = s.i := by
  obtain ⟨e, -, hs⟩ | ⟨u, -, hs, hkeeps, -⟩ := exec_cases i s <;> cases hs.symm.trans h
  · rfl
  · exact hkeeps.index fun hmem => not_exists.2 hi (index_mem_writtenParts_iff.1 hmem)

end Sys2Proof.Machine
end

section
/-! PROOFS. Steps (spec 30_encoding.md R85, R86, 60_exceptions.md R210, R216). The key fact is that the error the checks give, in
their order, is the one the step raises. -/

namespace Sys2Proof.Machine

/-- Settles O12: an instruction completes whether its check passes or fails, and every other step is a next state too. -/
theorem everyStepAndEveryInstructionCompletes : Obligations.EveryStepAndEveryInstructionCompletes := by
  refine ⟨fun s => ?_, exec_completes⟩
  obtain ⟨-, hs⟩ | ⟨-, -, hs⟩ | ⟨-, -, -, hs⟩ | ⟨i, -, -, -, hs⟩ := step_cases s
  case inr.inr.inr => rw [hs]; exact exec_completes i s
  all_goals exact ⟨_, hs⟩

theorem errorOf_of_pc_invalid {s : State} (h : 4096 ≤ s.pc.toNat + 1) :
    errorOf s = some ⟨.memoryOutOfBounds, some s.pc, none, some (max s.pc.toNat 4096)⟩ := if_pos h

theorem errorOf_of_decodeWord_none {s : State} (h : s.pc.toNat + 1 < 4096) (hd : decodeWord (s.wordAt s.pc.toNat) = none) :
    errorOf s = some ⟨.unimplementedOpcode, some s.pc, some (s.wordAt s.pc.toNat), none⟩ := by
  simp [errorOf, Nat.not_le.2 h, hd]

theorem errorOf_of_decodeWord_some {s : State} {i : Instr} (h : s.pc.toNat + 1 < 4096)
    (hd : decodeWord (s.wordAt s.pc.toNat) = some i) :
    errorOf s = (checkOf s i).map fun e => ⟨e.kind, some s.pc, some (encode i), e.addr⟩ := by
  simp [errorOf, Nat.not_le.2 h, hd, encode_of_decodeWord hd]

/-- A Running step raises the error its checks give, or goes on Running: an instruction that completes keeps the status. -/
theorem step_of_running {s : State} (hr : s.status = .running) :
    (∃ r, errorOf s = some r ∧ step s = .next { s with status := .halted r }) ∨
      (∃ t, errorOf s = none ∧ step s = .next t ∧ t.status = .running) := by
  obtain ⟨hn, -⟩ | ⟨-, hp, hs⟩ | ⟨-, hp, hd, hs⟩ | ⟨i, -, hp, hd, hs⟩ := step_cases s
  · exact absurd hr hn
  · exact .inl ⟨_, errorOf_of_pc_invalid hp, hs⟩
  · exact .inl ⟨_, errorOf_of_decodeWord_none hp hd, hs⟩
  · rw [errorOf_of_decodeWord_some hp hd, hs]
    obtain ⟨e, hcheck, h⟩ | ⟨t, hcheck, h, hkeeps, -⟩ := exec_cases i s
    · exact .inl ⟨_, by rw [hcheck]; rfl, h⟩
    · exact .inr ⟨t, by rw [hcheck]; rfl, h, hkeeps.status.trans hr⟩

/-- Settles O13: the step raises the error the checks give, and nothing else halts it. -/
theorem stepRaisesExactlyItsFirstError : Obligations.StepRaisesExactlyItsFirstError := by
  intro s hr
  obtain ⟨r, he, hs⟩ | ⟨t, he, hs, ht⟩ := step_of_running hr
  · exact ⟨_, hs, fun r' hr' => by cases he.symm.trans hr'; rfl, by simp [he]⟩
  · exact ⟨t, hs, by simp [he], fun _ => ht⟩

/-- Two bytes decode as their word does. -/
theorem decodeWord_of_decode_pair {hi lo : Byte} {i : Instr} (h : decode [hi, lo] = .ok (i, [])) :
    decodeWord (wordOfBytes hi lo) = some i := by
  cases hd : decodeWord (wordOfBytes hi lo) with
  | none => simp [decode, hd] at h
  | some j => simpa [decode, hd] using h

/-- Settles O8: the fetched word is the two bytes' word, and the boundary's Step wraps the step. -/
theorem stepRunsTheDecodedInstruction : Obligations.StepRunsTheDecodedInstruction := by
  refine ⟨fun s i hr hpc h => step_instr hr (fetchInstr_instr s hpc (decodeWord_of_decode_pair h)), fun b t h => ?_⟩
  simp [boundary, boundaryStep, h]

/-- Settles O9: the fetch's check covers both bytes. -/
theorem fetchBeyondMemoryHalts : Obligations.FetchBeyondMemoryHalts := fun s hr hpc =>
  step_error hr (fetchInstr_invalid s hpc)

/-- Settles O11: only a Running step fetches. -/
theorem stepWhenNotRunningDoesNothing : Obligations.StepWhenNotRunningDoesNothing := fun _ h => step_notRunning h

end Sys2Proof.Machine
end

section
/-! PROOFS. The invariant of every reachable state. The key facts: a change of the status keeps it if the new error record
fits; an instruction whose check passes keeps it because of the few parts it writes and of R26's table. -/

namespace Sys2Proof.Machine

/-! ## Errors and other changes of the status -/

theorem Inv.setStatus {s : State} {st : Status} (h : Inv s) (hst : ∀ r, st = .halted r → RecordFits s.pc r) :
    Inv { s with status := st } :=
  { h with record := hst }

theorem Inv.raise {s : State} {w : Option Word} {e : StepError} (h : Inv s)
    (hfits : RecordFits s.pc ⟨e.kind, some s.pc, w, e.addr⟩) : Inv (raise s w e) :=
  h.setStatus fun _ hr => Status.halted.inj hr ▸ hfits

/-- The record of an instruction's own check fits R210's table; with I <= 0xFFF the lowest invalid row is at 4096. -/
theorem recordFits_of_check {i : Instr} {s : State} {e : StepError} (hindex : s.i.toNat ≤ 0xFFF)
    (h : checkOf s i = some e) : RecordFits s.pc ⟨e.kind, some s.pc, some (encode i), e.addr⟩ := by
  cases i with
  | ret =>
    obtain ⟨-, he⟩ := Option.ite_none_right_eq_some.1 h
    cases he
    exact ⟨rfl, rfl, rfl⟩
  | call nnn =>
    obtain ⟨-, he⟩ := Option.ite_none_right_eq_some.1 h
    cases he
    exact ⟨rfl, ⟨nnn, rfl⟩, rfl⟩
  | drw x y n =>
    obtain ⟨⟨hn, -⟩, he⟩ := Option.ite_none_right_eq_some.1 h
    cases he
    have haddr : max s.i.toNat 4096 = 4096 := by omega
    exact ⟨rfl, .inr ⟨x, y, n, rfl, hn, congrArg some haddr⟩⟩
  | _ => cases h

/-! ## Instructions -/

/-- R26's table stays within 0x1002 from a PC that can be fetched. -/
theorem Inv.pcAfter_le {s : State} (h : Inv s) (hpc : s.pc.toNat + 1 < 4096) (i : Instr) :
    (pcAfter s i).toNat ≤ 0x1002 := by
  have h2 : (s.pc + 2#16).toNat ≤ 0x1002 := by bv_omega
  have h4 : (s.pc + 4#16).toNat ≤ 0x1002 := by bv_omega
  cases i with
  | jp nnn | call nnn =>
    have hnnn := nnn.isLt
    simp only [pcAfter, zext16_toNat]
    omega
  | ret =>
    have hentries := h.entries
    cases hs : s.stack with
    | nil => simp [pcAfter, hs]
    | cons top rest =>
      have htop := hentries top (by simp [hs])
      simp only [pcAfter, hs, List.headD_cons]
      omega
  | seImm | sneImm | seReg | sneReg => simp only [pcAfter]; split <;> assumption
  | cls | ldImm | addImm | ldReg | orReg | andReg | xorReg | addReg | ldI | drw => exact h2

/-- Only ANNN writes I, and a 12-bit value. -/
theorem Inv.index_of_exec {i : Instr} {s t : State} (h : Inv s) (hs : exec i s = .next t) : t.i.toNat ≤ 0xFFF := by
  by_cases hi : ∃ nnn, i = .ldI nnn
  · obtain ⟨nnn, rfl⟩ := hi
    cases hs
    have hnnn := nnn.isLt
    simp only [State.setI_i, zext16_toNat]
    omega
  · rw [exec_index hs (not_exists.1 hi)]
    exact h.index

/-- The stack keeps its bound and its entries theirs: 00EE pops, 2NNN pushes A + 2 where there is room, the rest keep it. -/
theorem Inv.stack_of_exec {i : Instr} {s t : State} (h : Inv s) (hpc : s.pc.toNat + 1 < 4096) (hcheck : checkOf s i = none)
    (hs : exec i s = .next t) (hkeeps : Keeps (writtenParts s.params i) s t) :
    t.stack.length ≤ s.params.stackDepth ∧ ∀ w ∈ t.stack, w.toNat ≤ 0x1000 := by
  have hdepth := h.depth
  have hentries := h.entries
  by_cases hi : Part.stack ∈ writtenParts s.params i
  · obtain rfl | ⟨nnn, rfl⟩ := stack_mem_writtenParts_iff.1 hi
    · obtain ⟨top, rest, hstack⟩ := List.exists_cons_of_ne_nil (checkOf_ret_eq_none_iff.1 hcheck)
      cases (exec_ret_of_cons hstack).symm.trans hs
      rw [hstack] at hdepth hentries
      exact ⟨Nat.le_of_succ_le hdepth, fun w hw => hentries w (List.mem_cons_of_mem _ hw)⟩
    · have hroom := checkOf_call_eq_none_iff.1 hcheck
      cases (exec_call_of_room nnn hroom).symm.trans hs
      have htop : (s.pc + 2#16).toNat ≤ 0x1000 := by bv_omega
      exact ⟨Nat.lt_of_le_of_ne hdepth hroom, List.forall_mem_cons.2 ⟨htop, hentries⟩⟩
  · rw [hkeeps.stack hi]
    exact ⟨hdepth, hentries⟩

theorem Inv.exec {i : Instr} {s t : State} (h : Inv s) (hr : s.status = .running) (hpc : s.pc.toNat + 1 < 4096)
    (hs : exec i s = .next t) : Inv t := by
  obtain ⟨e, hcheck, he⟩ | ⟨u, hcheck, hu, hkeeps, hpcAfter⟩ := exec_cases i s
  · cases he.symm.trans hs
    exact h.raise (recordFits_of_check h.index hcheck)
  · cases hu.symm.trans hs
    obtain ⟨hmem, hparams⟩ := exec_mem_params hs
    obtain ⟨hdepth, hentries⟩ := h.stack_of_exec hpc hcheck hs hkeeps
    exact {
      params := hparams ▸ h.params
      memory := hmem ▸ hparams ▸ h.memory
      index := h.index_of_exec hs
      pc := hpcAfter ▸ h.pcAfter_le hpc i
      depth := hparams ▸ hdepth
      entries := hentries
      timer := (exec_dt hs).trans h.timer
      record := fun r hhalted => by cases hhalted.symm.trans (hkeeps.status.trans hr) }

/-- Settles O17: a step does nothing, raises an error whose record fits, or runs one instruction. -/
theorem stepKeepsTheInvariant : Obligations.StepKeepsTheInvariant := by
  intro s t h hs
  obtain ⟨-, he⟩ | ⟨-, hp, he⟩ | ⟨-, -, hd, he⟩ | ⟨i, hr, hp, -, he⟩ := step_cases s
  · cases he.symm.trans hs; exact h
  · cases he.symm.trans hs; exact h.raise ⟨rfl, .inl ⟨rfl, hp, rfl⟩⟩
  · cases he.symm.trans hs; exact h.raise ⟨rfl, ⟨_, rfl, hd⟩, rfl⟩
  · exact h.exec hr hp (he.symm.trans hs)

/-! ## Boundary operations -/

theorem inv_resetWith {c : Config} (h : c.wf) : Inv (State.resetWith c) where
  params := h
  memory := State.resetWith_wf c
  index := by simp
  pc := by simp
  depth := by simp
  entries := by simp
  timer := rfl
  record := by simp

/-- Settles O19: Reset's values meet the bounds, and the default STACK_DEPTH is positive. -/
theorem resetMeetsTheInvariant : Obligations.ResetMeetsTheInvariant :=
  ⟨fun _ => inv_resetWith, inv_resetWith (by decide)⟩

/-- An image is written byte by byte in canonical form, or refused with a record that names no instruction. -/
theorem Inv.loadRom {s : State} (h : Inv s) (bytes : List Byte) : Inv (loadRom bytes s) := by
  unfold Machine.loadRom
  split
  · exact h.setStatus fun r hr => Status.halted.inj hr ▸ ⟨rfl, rfl, rfl⟩
  · have hwf := State.writeBytes_wf 0x200 bytes h.memory
    obtain ⟨m, hm⟩ := State.writeBytes_keeps s 0x200 bytes
    rw [hm] at hwf ⊢
    exact { h with memory := hwf }

theorem Inv.hostStop {s : State} (h : Inv s) : Inv (hostStop s) := by
  unfold Machine.hostStop
  split
  · exact h.setStatus fun r hr => by cases hr
  · exact h
  · exact h

/-- Settles O18: each of the four operations by its own lemma. -/
theorem boundaryKeepsTheInvariant : Obligations.BoundaryKeepsTheInvariant := by
  intro op b b' h hb
  cases op with
  | reset => cases hb; exact inv_resetWith h.params
  | loadRom bytes =>
    obtain ⟨-, rfl⟩ | ⟨-, -, rfl⟩ := boundaryLoad_cases hb
    · exact h
    · exact h.loadRom bytes
  | step => exact stepKeepsTheInvariant _ _ h (boundaryStep_next hb).1
  | stop => cases hb; exact h.hostStop

end Sys2Proof.Machine
end

section
/-! PROOFS. The index register (spec 42_index.md R171). The key fact is that overwriting I commutes with every instruction but
ANNN, which overwrites it again, and DXYN, which reads it. -/

namespace Sys2Proof.Machine

theorem State.skipIf_setI (s : State) (w : Word) (c : Bool) : (s.setI w).skipIf c = (s.skipIf c).setI w := by
  cases c <;> rfl

theorem instrRule_setI {i : Instr} (s : State) (w : Word) (hldI : ∀ nnn, i ≠ .ldI nnn) (hdrw : ∀ x y n, i ≠ .drw x y n) :
    instrRule i (s.setI w) = (instrRule i s).map (State.setI · w) := by
  cases i with
  | ldI nnn => exact absurd rfl (hldI nnn)
  | drw x y n => exact absurd rfl (hdrw x y n)
  | ret =>
    cases h : s.stack with
    | nil => simp only [instrRule, popPc_empty _ h, popPc_empty (s.setI w) h]; rfl
    | cons top rest => simp only [instrRule, popPc_cons _ h, popPc_cons (s.setI w) h]; rfl
  | call nnn =>
    by_cases h : s.stack.length = s.params.stackDepth
    · simp only [instrRule, pushPc_full _ h, pushPc_full (s.setI w) h]; rfl
    · simp only [instrRule, pushPc_room _ h, pushPc_room (s.setI w) h]; rfl
  | seImm | sneImm | seReg | sneReg => exact congrArg Except.ok (State.skipIf_setI s w _)
  | cls | jp | ldImm | addImm | ldReg | orReg | andReg | xorReg | addReg => rfl

theorem exec_setI {i : Instr} (s : State) (w : Word) (hldI : ∀ nnn, i ≠ .ldI nnn) (hdrw : ∀ x y n, i ≠ .drw x y n) :
    ∃ t, exec i s = .next t ∧ exec i (s.setI w) = .next (t.setI w) :=
  exec_commutes (f := (State.setI · w)) rfl (fun _ _ => rfl) (instrRule_setI s.advance w hldI hdrw)

theorem exec_ldI (nnn : Addr12) (s : State) : exec (.ldI nnn) s = .next (s.advance.setI (zext16 nnn)) := rfl

/-- Settles O23: I stands in the list of written parts of ANNN only; ANNN ends in one state from both, and the others, but
DXYN, commute with overwriting I. -/
theorem indexIsWrittenOnlyByLdIAndReadOnlyByDrw : Obligations.IndexIsWrittenOnlyByLdIAndReadOnlyByDrw := by
  refine ⟨fun i s t => exec_index, fun i s w hdrw => ?_⟩
  by_cases hi : ∃ nnn, i = .ldI nnn
  · obtain ⟨nnn, rfl⟩ := hi
    exact ⟨_, _, exec_ldI nnn s, exec_ldI nnn (s.setI w), rfl⟩
  · obtain ⟨t, ht, ht'⟩ := exec_setI s w (not_exists.1 hi) hdrw
    exact ⟨t, t.setI w, ht, ht', rfl⟩

end Sys2Proof.Machine
end

section
/-! PROOFS. Control transfer and the skips on two registers (spec 40_flow.md). The key facts: a step at an instruction's word is
that instruction, and a state that steps to itself does so for ever. -/

namespace Sys2Proof.Machine

/-- A Running step at an instruction's word runs that instruction. -/
theorem step_of_wordAt_eq_encode {s : State} {i : Instr} (hr : s.status = .running) (hpc : s.pc.toNat + 1 < 4096)
    (hw : s.wordAt s.pc.toNat = encode i) : step s = exec i s :=
  step_instr hr (fetchInstr_instr s hpc (decodeWord_eq_some_iff.2 hw.symm))

theorem steps_of_step_self {s : State} (h : step s = .next s) (k : Nat) : steps k s = .next s := by
  induction k with
  | zero => rfl
  | succ k ih => rw [steps_succ k h, ih]

theorem advancesBy_two {s t : State} (h : t.pc = s.pc + 2#16) : AdvancesBy 2 s t := by
  intro hpc
  rw [h]
  bv_omega

/-! ## 1NNN -/

theorem exec_jp (nnn : Addr12) (s : State) : exec (.jp nnn) s = .next (s.advance.setPc (zext16 nnn)) := rfl

/-- Loading PC with the address it held before the fetch undoes the advance. -/
theorem advance_setPc_self {s : State} {nnn : Addr12} (h : s.pc.toNat = nnn.toNat) :
    s.advance.setPc (zext16 nnn) = s := by
  have hpc : zext16 nnn = s.pc := BitVec.eq_of_toNat_eq ((zext16_toNat nnn).trans h.symm)
  rw [hpc]
  rfl

/-- Settles O24: the class nibble 1 dispatches to the jump, whose rule loads PC; a fetch at 0xFFF is invalid, and a jump to
itself steps to the same state. -/
theorem jumpLoadsPc : Obligations.JumpLoadsPc := by
  refine ⟨fun w => decodeWord_of_nnnRow (c := 0x1#4) rfl, fun nnn s => ⟨_, exec_jp nnn s, zext16_toNat nnn,
    by constructor <;> simp, advance_setPc_self, fun hnnn hr => ?_⟩, fun nnn s k hr hnnn hpc hw => ?_⟩
  · subst hnnn
    exact ⟨_, step_error hr (fetchInstr_invalid _ (show 4096 ≤ (zext16 0xFFF#12).toNat + 1 by decide))⟩
  · have hstep := step_of_wordAt_eq_encode hr (by omega) hw
    rw [exec_jp, advance_setPc_self hpc] at hstep
    exact steps_of_step_self hstep k

/-! ## 00EE and 2NNN -/

/-- Settles O25: with an entry the rule pops it into PC; without one the check fails. -/
theorem returnPopsTheStack : Obligations.ReturnPopsTheStack :=
  ⟨fun _ _ _ h => ⟨_, exec_ret_of_cons h, rfl, rfl, by constructor <;> simp⟩,
    fun _ h => exec_of_check_some (i := .ret) (if_pos h)⟩

/-- Settles O26: with room the rule pushes A + 2 and loads PC; on a full stack the check fails. -/
theorem callPushesTheReturnAddress : Obligations.CallPushesTheReturnAddress := by
  refine ⟨fun nnn s h => ⟨_, _, exec_call_of_room nnn h.ne, zext16_toNat nnn, rfl, fun hpc => ?_,
    by constructor <;> simp⟩, fun nnn s h => exec_of_check_some (i := .call nnn) (if_pos h)⟩
  bv_omega

/-- Settles O27: the call leaves A + 2 on top and PC at NNN, where the return pops it. -/
theorem callThenReturnComesBack : Obligations.CallThenReturnComesBack := by
  intro s nnn hr hpc hw hroom hnnn hret
  have hcall := (step_of_wordAt_eq_encode hr hpc hw).trans (exec_call_of_room nnn hroom.ne)
  have hreturn := step_of_wordAt_eq_encode (s := (s.advance.setStack ((s.pc + 2#16) :: s.stack)).setPc (zext16 nnn))
    (i := .ret) hr (by simpa using hnnn) (by rw [State.setPc_pc, zext16_toNat]; exact hret)
  rw [steps_succ 1 hcall, steps_succ 0 (hreturn.trans (exec_ret_of_cons rfl))]
  rfl

/-! ## 5XY0 and 9XY0 -/

/-- Settles O29: both rules skip on the comparison of V[X] with V[Y], which are equal if X = Y. -/
theorem skipsOnTwoRegisters : Obligations.SkipsOnTwoRegisters := by
  refine ⟨fun x y s => ?_, fun x y s => ?_⟩
  · obtain ⟨t, ht, hskip, hnot, hkeeps⟩ := exec_skip (i := .seReg x y) (s := s) (c := s.reg x == s.reg y) rfl
    rw [beq_iff_eq] at hskip
    rw [beq_eq_false_iff_ne] at hnot
    exact ⟨t, ht, hskip, hnot, fun hxy => hskip (congrArg s.reg hxy), hkeeps⟩
  · obtain ⟨t, ht, hskip, hnot, hkeeps⟩ := exec_skip (i := .sneReg x y) (s := s) (c := s.reg x != s.reg y) rfl
    rw [bne_iff_ne] at hskip
    rw [bne_eq_false_iff_eq] at hnot
    exact ⟨t, ht, hskip, hnot, fun hxy => hnot (congrArg s.reg hxy), hkeeps⟩

end Sys2Proof.Machine
end

section
/-! PROOFS. The ALU operations in both modes (spec 41_alu.md R143, R147 to R151). The key fact is which byte the first operand
is: V[X] in the standard mode, V[Y] in source_faithful. -/

namespace Sys2Proof.Machine

theorem aluA_standard {s : State} {x y : RegIdx} (h : s.params.aluMode = .standard) : aluA s x y = s.reg x := by
  simp [aluA, h]

theorem aluA_sourceFaithful {s : State} {x y : RegIdx} (h : s.params.aluMode = .sourceFaithful) :
    aluA s x y = s.reg y := by
  simp [aluA, h]

/-- An instruction whose rule writes `op` of the two ALU operands into V[x]. -/
theorem exec_aluOp {i : Instr} {op : Byte → Byte → Byte} {x y : RegIdx} {s : State}
    (h : instrRule i s.advance = .ok (s.advance.setReg x (op (aluA s x y) (s.reg y)))) :
    ∃ t, exec i s = .next t ∧ (s.params.aluMode = .standard → t.reg x = op (s.reg x) (s.reg y)) ∧
      (s.params.aluMode = .sourceFaithful → t.reg x = op (s.reg y) (s.reg y)) ∧ AdvancesBy 2 s t ∧ Keeps [.reg x] s t := by
  obtain ⟨t, ht, hx, hpc, hkeeps, -⟩ := exec_setReg h
  exact ⟨t, ht, fun hm => by rw [hx, aluA_standard hm], fun hm => by rw [hx, aluA_sourceFaithful hm], hpc, hkeeps⟩

/-- Settles O33: the three rules write OR, AND and XOR of the operands; of V[Y] with itself these are V[Y], V[Y] and 0. -/
theorem logicOperationsInBothModes : Obligations.LogicOperationsInBothModes := by
  refine ⟨fun x y s => ?_, fun x y s => ?_, fun x y s => ?_⟩
  · simpa only [aluOr, BitVec.or_self] using exec_aluOp (i := .orReg x y) (op := aluOr) rfl
  · simpa only [aluAnd, BitVec.and_self] using exec_aluOp (i := .andReg x y) (op := aluAnd) rfl
  · simpa only [aluXor, BitVec.xor_self] using exec_aluOp (i := .xorReg x y) (op := aluXor) rfl

theorem exec_addReg (x y : RegIdx) (s : State) :
    exec (.addReg x y) s = .next (writeCarry (s.advance.setReg x (aluAdd (aluA s x y) (s.reg y)))
      (carryOut (aluA s x y) (s.reg y))) := rfl

theorem flagByte_carryOut (a b : Byte) : flagByte (carryOut a b) = if 256 ≤ a.toNat + b.toNat then 1#8 else 0#8 := by
  by_cases h : 256 ≤ a.toNat + b.toNat <;> simp [flagByte, carryOut, aluSum, h]

/-- Settles O34: the rule writes the sum and then the carry, so that in VF the carry stays. -/
theorem addRegisterSetsSumAndCarry : Obligations.AddRegisterSetsSumAndCarry := by
  intro x y s a hstandard hfaithful
  have ha : aluA s x y = a := by
    cases hm : s.params.aluMode with
    | standard => rw [aluA_standard hm, hstandard hm]
    | sourceFaithful => rw [aluA_sourceFaithful hm, hfaithful hm]
  obtain ⟨t, ht, hkeeps, hpc⟩ := exec_of_check_none (i := .addReg x y) (s := s) rfl
  cases (exec_addReg x y s).symm.trans ht
  refine ⟨_, ht, fun hcarry => ?_, fun hcarry => ?_, fun hx => ?_, advancesBy_two hpc, hkeeps⟩
  · rw [writeCarry_reg, if_pos rfl, ha, flagByte_carryOut, if_pos hcarry]
  · rw [writeCarry_reg, if_pos rfl, ha, flagByte_carryOut, if_neg (Nat.not_le.2 hcarry)]
  · rw [writeCarry_reg, if_neg hx, State.setReg_reg, if_pos rfl, ha, aluAdd_toNat]

end Sys2Proof.Machine
end

section
/-! PROOFS. DXYN (spec 43_display.md R181 to R189) and the snapshot (R195). The key fact is that the drawn pixels are those that
`spriteCovers` names, each XORed, and that the collision is one of them that was on. -/

namespace Sys2Proof.Machine

/-! ## Rows beyond memory -/

theorem exec_drw_of_unreadable {s : State} {n : Nibble} (x y : RegIdx) (hn : 0 < n.toNat)
    (hrow : 4096 ≤ s.i.toNat + n.toNat - 1) :
    exec (.drw x y n) s =
      .next (raise s (some (encode (.drw x y n))) ⟨.memoryOutOfBounds, some (max s.i.toNat 4096)⟩) :=
  exec_of_check_some (if_pos ⟨hn, hrow⟩)

/-- Settles O38: the check fails, whatever the coordinates. -/
theorem drawBeyondMemoryHalts : Obligations.DrawBeyondMemoryHalts := fun x y _ _ hn hrow =>
  exec_drw_of_unreadable x y hn hrow

/-- Settles O35: the class nibble A dispatches to the load, whose rule writes NNN into I; from I = 0xFFF one row can be read and
two cannot. -/
theorem loadIndexSetsI : Obligations.LoadIndexSetsI := by
  refine ⟨fun w => decodeWord_of_nnnRow (c := 0xA#4) rfl, fun nnn s => ?_⟩
  obtain ⟨t, ht, hkeeps, hpc⟩ := exec_of_check_none (i := .ldI nnn) (s := s) rfl
  cases (exec_ldI nnn s).symm.trans ht
  refine ⟨_, ht, zext16_toNat nnn, advancesBy_two hpc, hkeeps, fun hnnn x y n => ?_⟩
  have hindex : (s.advance.setI (zext16 nnn)).i.toNat = 0xFFF := by rw [hnnn]; rfl
  refine ⟨fun hn => ⟨_, exec_drw_of_unreadable x y (by omega) (by omega)⟩, fun hn => ?_⟩
  have hcheck : checkOf (s.advance.setI (zext16 nnn)) (.drw x y n) = none := checkOf_drw_eq_none_iff.2 (.inr (by omega))
  exact ⟨_, exec_drw_of_readable hcheck, by simp [State.drawn]⟩

/-! ## The drawn pixels -/

/-- The sprite covers a pixel if the row list that is drawn has a 1 for it (43_display.md R181). -/
theorem spriteCovers_iff (s : State) (x0 y0 n px py : Nat) :
    spriteCovers s x0 y0 n px py = true ↔ x0 ≤ px ∧ px < x0 + 8 ∧ y0 ≤ py ∧ py < y0 + n ∧
      spriteBit (((List.range n).map fun r => s.peek (s.i.toNat + r)).getD (py - y0) 0) (px - x0) = true := by
  by_cases h : x0 ≤ px ∧ px < x0 + 8 ∧ y0 ≤ py ∧ py < y0 + n
  · rw [spriteRows_getD s n (py - y0) (by omega)]
    simp [spriteCovers, spriteBit, h]
  · simp only [spriteCovers, h, decide_false, Bool.false_and, Bool.false_eq_true, false_iff]
    tauto

theorem drawn_pixel (s : State) (x y : RegIdx) (n : Nibble) {px py : Nat} (hpx : px < 64) (hpy : py < 32) :
    Display.pixel (s.drawn x y n).disp px py =
      (Display.pixel s.disp px py ^^ spriteCovers s (s.reg x).toNat (s.reg y).toNat n.toNat px py) := by
  simp only [State.drawn, writeCollision_disp, State.setDisp_disp, State.draw, drawSprite_pixel]
  congr 1
  rw [Bool.eq_iff_iff, spriteCovers_iff]
  simp [hpx, hpy, and_assoc]

theorem draw_collided_iff (s : State) (x y : RegIdx) (n : Nibble) :
    (s.draw x y n).2 = true ↔ ∃ px py : Nat, px < 64 ∧ py < 32 ∧ Display.pixel s.disp px py = true ∧
      spriteCovers s (s.reg x).toNat (s.reg y).toNat n.toNat px py = true := by
  simp only [State.draw, drawSprite_collided, spriteCovers_iff, List.length_map, List.length_range]
  refine exists_congr fun px => exists_congr fun py => ?_
  tauto

theorem drawn_vf (s : State) (x y : RegIdx) (n : Nibble) :
    (s.drawn x y n).reg vf =
      if s.params.collisionMode = .standard then flagByte (s.draw x y n).2 else s.reg vf := by
  simp [State.drawn]

/-- Settles O37: what `drawSprite` does to each pixel and its collision, in the terms of `spriteCovers`. -/
theorem drawXorsTheSpriteAndReportsCollision : Obligations.DrawXorsTheSpriteAndReportsCollision := by
  intro x y n s h
  have hcheck : checkOf s (.drw x y n) = none := checkOf_drw_eq_none_iff.2 h
  obtain ⟨t, ht, hkeeps, hpc⟩ := exec_of_check_none hcheck
  cases (exec_drw_of_readable hcheck).symm.trans ht
  refine ⟨_, ht, fun px py => drawn_pixel s x y n, fun hm => ⟨fun hon => ?_, fun hoff => ?_⟩, fun hm => ?_,
    advancesBy_two hpc, hkeeps⟩
  · rw [drawn_vf, if_pos hm, (draw_collided_iff s x y n).2 hon]; rfl
  · have hnone : (s.draw x y n).2 = false := by
      rw [Bool.eq_false_iff, Ne, draw_collided_iff]
      rintro ⟨px, py, hpx, hpy, hpixel, hcover⟩
      exact Bool.false_ne_true ((hoff px py hpx hpy hpixel).symm.trans hcover)
    rw [drawn_vf, if_pos hm, hnone]; rfl
  · rw [drawn_vf, hm, if_neg (by decide)]

/-! ## Draws that change no pixel -/

/-- An operation that may write the display but leaves every pixel as it was writes the other parts only. -/
theorem Keeps.of_display {parts : List Part} {s t : State} (h : Keeps (.display :: parts) s t)
    (hpixel : ∀ x y : Nat, Display.pixel t.disp x y = Display.pixel s.disp x y) : Keeps parts s t :=
  { h with
    regs := fun x hx => h.regs x (by simp [hx])
    index := fun hi => h.index (by simp [hi])
    stack := fun hs => h.stack (by simp [hs])
    display := fun _ => hpixel }

/-- Pixels off the grid read as off in every display. -/
theorem pixel_eq_of_grid {d d' : Display}
    (h : ∀ px py : Nat, px < 64 → py < 32 → Display.pixel d px py = Display.pixel d' px py) (px py : Nat) :
    Display.pixel d px py = Display.pixel d' px py := by
  by_cases hgrid : px < 64 ∧ py < 32
  · exact h px py hgrid.1 hgrid.2
  · rw [Display.pixel_offGrid d hgrid, Display.pixel_offGrid d' hgrid]

/-- A sprite of no rows, or one that starts off the grid, covers no pixel of the grid. -/
theorem spriteCovers_eq_false (s : State) {x0 y0 n px py : Nat} (h : n = 0 ∨ 64 ≤ x0 ∨ 32 ≤ y0) (hpx : px < 64)
    (hpy : py < 32) : spriteCovers s x0 y0 n px py = false := by
  rw [Bool.eq_false_iff, Ne, spriteCovers_iff]
  omega

/-- Settles O39: such a sprite covers no pixel, so that the draw changes none and does not collide. -/
theorem emptyAndOffGridDrawsChangeNoPixel : Obligations.EmptyAndOffGridDrawsChangeNoPixel := by
  intro x y n s h
  have hcover (px py : Nat) (hpx : px < 64) (hpy : py < 32) :
      spriteCovers s (s.reg x).toNat (s.reg y).toNat n.toNat px py = false :=
    spriteCovers_eq_false s (h.imp_right And.right) hpx hpy
  obtain ⟨t, ht, hpixel, hstandard, hnone, hpc, hkeeps⟩ :=
    drawXorsTheSpriteAndReportsCollision x y n s (h.imp_right And.left)
  refine ⟨t, ht, fun hm => (hstandard hm).2 fun px py hpx hpy _ => hcover px py hpx hpy, hnone, hpc,
    hkeeps.of_display (pixel_eq_of_grid fun px py hpx hpy => ?_)⟩
  rw [hpixel px py hpx hpy, hcover px py hpx hpy, Bool.xor_false]

/-! ## Drawing twice -/

/-- Which pixels a sprite covers depends on memory and I only. -/
theorem spriteCovers_congr {s t : State} (hindex : t.i = s.i) (hmem : ∀ a, t.peek a = s.peek a) (x0 y0 n px py : Nat) :
    spriteCovers t x0 y0 n px py = spriteCovers s x0 y0 n px py := by
  simp only [spriteCovers, hindex, hmem]

/-- Settles O40: both draws XOR the same pixels; a pixel the first turned on is covered, and on at the second. -/
theorem drawingTwiceRestoresTheDisplay : Obligations.DrawingTwiceRestoresTheDisplay := by
  intro x y n s t u h hst htu hx hy
  obtain ⟨t', ht, hpixel, -, -, -, hkeeps⟩ := drawXorsTheSpriteAndReportsCollision x y n s h
  cases ht.symm.trans hst
  have hindex : t.i = s.i := hkeeps.index (by simp)
  obtain ⟨u', hu, hpixel', hstandard, -⟩ := drawXorsTheSpriteAndReportsCollision x y n t (hindex ▸ h)
  cases hu.symm.trans htu
  simp only [hx, hy, spriteCovers_congr hindex hkeeps.memory] at hpixel' hstandard
  refine ⟨pixel_eq_of_grid fun px py hpx hpy => ?_, fun hm ⟨px, py, hoff, hon⟩ => ?_⟩
  · rw [hpixel' px py hpx hpy, hpixel px py hpx hpy, Bool.xor_assoc, Bool.xor_self, Bool.xor_false]
  · have hgrid : px < 64 ∧ py < 32 := by
      by_contra hgrid
      exact Bool.false_ne_true ((Display.pixel_offGrid t.disp hgrid).symm.trans hon)
    have hcover := hpixel px py hgrid.1 hgrid.2
    rw [hon, hoff, Bool.false_xor] at hcover
    exact (hstandard (hkeeps.params ▸ hm)).1 ⟨px, py, hgrid.1, hgrid.2, hon, hcover.symm⟩

/-! ## The snapshot -/

theorem displaySnapshot_eq_flatten (s : State) : displaySnapshot s = s.disp.flatten.toList := by
  simp only [displaySnapshot, Vector.flatten, Vector.toList_mk, Array.toList_flatten, Array.toList_map, List.map_map]
  rfl

/-- Settles O48: the snapshot is the display flattened, whose entry y * 64 + x is entry x of row y. -/
theorem snapshotIsRowMajor : Obligations.SnapshotIsRowMajor := by
  intro s
  rw [displaySnapshot_eq_flatten]
  refine ⟨Vector.length_toList, fun x y hx hy => ?_⟩
  have hlt : y * 64 + x < 32 * 64 := by omega
  have hrow : (y * 64 + x) / 64 = y := by omega
  have hcolumn : (y * 64 + x) % 64 = x := by omega
  rw [Vector.getElem?_toList, Vector.getElem?_eq_getElem hlt, Vector.getElem_flatten]
  simp only [hrow, hcolumn, Display.pixel, hx, hy, and_self, dif_pos]

end Sys2Proof.Machine
end

section
/-! PROOFS. The boundary operations (spec 00_scope.md R13, 70_reset_and_hazards.md, 60_exceptions.md R217 to R222). The key facts
say what each does on a Running block and on one that is not. -/

namespace Sys2Proof.Machine

/-! ## Reset -/

theorem boundary_reset (b : Boundary) : boundary .reset b = .next ⟨hostReset b.block, true⟩ := rfl

/-- Beyond the font area the reset image is zeros. -/
theorem background_eq_zero (c : Config) {a : Nat} (h : 80 ≤ a) : background c a = 0x00#8 := dif_neg (Nat.not_lt.2 h)

/-- Settles O41: the reset state read field by field. -/
theorem resetGivesTheResetValues : Obligations.ResetGivesTheResetValues := fun b =>
  ⟨_, boundary_reset b, State.resetWith_reg b.block.params, rfl, rfl, rfl, rfl, fun _ => hostReset_peek_font b.block,
    fun a ha => (hostReset_peek b.block a).trans (background_eq_zero _ ha), Display.pixel_clear, rfl, rfl, rfl⟩

/-- Settles O50: the reset image is zero at 0x200 and 0x201, and the zero word does not decode. -/
theorem stepWithoutRomHalts : Obligations.StepWithoutRomHalts := by
  intro c
  have hword : (State.resetWith c).wordAt (0x0200#16).toNat = 0x0000#16 := by
    simp [State.wordAt, background_eq_zero, wordOfBytes]
  have hdecode : decodeWord ((State.resetWith c).wordAt (0x0200#16).toNat) = none := by rw [hword]; decide
  have hstep := step_unimplemented (s := State.resetWith c) rfl (show (0x0200#16).toNat + 1 < 4096 by decide) hdecode
  rwa [State.resetWith_pc, hword] at hstep

/-! ## LoadRom -/

theorem boundary_loadRom_of_window {b : Boundary} (bytes : List Byte) (hr : b.block.status = .running)
    (hw : b.loadPermitted = true) : boundary (.loadRom bytes) b = .next ⟨loadRom bytes b.block, false⟩ := by
  simp [boundary, boundaryLoad, hr, hw]

theorem boundary_loadRom_of_window_closed {b : Boundary} (bytes : List Byte) (hr : b.block.status = .running)
    (hw : b.loadPermitted = false) : boundary (.loadRom bytes) b = .refused .loadRomOutsideWindow := by
  simp [boundary, boundaryLoad, hr, hw]

theorem boundary_loadRom_of_not_running {b : Boundary} (bytes : List Byte) (h : b.block.status ≠ .running) :
    boundary (.loadRom bytes) b = .next b := by
  cases hs : b.block.status with
  | running => exact absurd hs h
  | halted r => simp [boundary, boundaryLoad, hs]
  | stopped => simp [boundary, boundaryLoad, hs]

theorem loadRom_of_fits {bytes : List Byte} (s : State) (h : bytes.length ≤ 3584) :
    loadRom bytes s = s.writeBytes 0x200 bytes :=
  if_neg (by omega)

theorem loadRom_of_oversized {bytes : List Byte} (s : State) (h : 3584 < bytes.length) :
    loadRom bytes s = raiseRomTooLarge s :=
  if_pos (by omega)

/-- Settles O43: an image that fits is written byte by byte at 0x200, which changes nothing but memory. -/
theorem loadRomPlacesTheImage : Obligations.LoadRomPlacesTheImage := by
  intro b bytes hr hw h
  have hpeek := State.writeBytes_peek b.block 0x200 bytes (by omega)
  refine ⟨_, boundary_loadRom_of_window bytes hr hw, rfl, ?_⟩
  rw [loadRom_of_fits b.block h]
  refine ⟨fun k hk => ?_, fun a ha => ?_, State.writeBytes_keeps b.block 0x200 bytes⟩
  · rw [hpeek, if_pos (by omega), Nat.add_sub_cancel_left, List.getD_eq_getElem _ _ hk]
  · rw [hpeek, if_neg (by omega)]

/-- Settles O44: an oversized image is refused before any byte is written. -/
theorem oversizedRomHaltsAndWritesNothing : Obligations.OversizedRomHaltsAndWritesNothing := by
  intro b bytes hr hw h
  rw [boundary_loadRom_of_window bytes hr hw, loadRom_of_oversized b.block h]
  rfl

/-- Settles O45: a Step closes the window, and so does a LoadRom that is taken; one that is not leaves a block that does not
run. -/
theorem lateLoadRomIsRefused : Obligations.LateLoadRomIsRefused := by
  intro op b b' bytes hop h hr
  refine boundary_loadRom_of_window_closed bytes hr ?_
  obtain rfl | ⟨image, rfl⟩ := hop
  · exact (boundaryStep_next h).2
  · obtain ⟨hstopped, rfl⟩ | ⟨-, -, rfl⟩ := boundaryLoad_cases h
    · exact absurd hr hstopped
    · rfl

/-! ## Halted and Stopped -/

theorem boundary_step_of_next {b : Boundary} {t : State} (h : step b.block = .next t) :
    boundary .step b = .next ⟨t, false⟩ :=
  stepRunsTheDecodedInstruction.2 b t h

theorem hostStop_of_not_running {s : State} (h : s.status ≠ .running) : hostStop s = s := by
  cases hs : s.status with
  | running => exact absurd hs h
  | halted r => simp [hostStop, hs]
  | stopped => simp [hostStop, hs]

theorem hostStop_of_running {s : State} (h : s.status = .running) : hostStop s = { s with status := .stopped } := by
  simp [hostStop, h]

/-- Settles O46: each operation but Reset leaves the block as it was, and Reset's state is Running. -/
theorem haltedAndStoppedAreAbsorbing : Obligations.HaltedAndStoppedAreAbsorbing := by
  refine fun b h => ⟨fun op hop => ?_, _, boundary_reset b, rfl⟩
  cases op with
  | reset => exact absurd rfl hop
  | loadRom bytes => exact ⟨b, boundary_loadRom_of_not_running bytes h, rfl⟩
  | step => exact ⟨_, boundary_step_of_next (step_notRunning h), rfl⟩
  | stop => exact ⟨_, rfl, hostStop_of_not_running h⟩

/-- Settles O47: a stopped state steps to itself. -/
theorem stopEndsTheRun : Obligations.StopEndsTheRun := by
  intro b k hr
  have hstop := hostStop_of_running hr
  refine ⟨_, rfl, hstop, steps_of_step_self (step_notRunning ?_) k⟩
  simp [hstop]

/-! ## Inspect -/

/-- The code is 0 exactly if the block has not halted: the five codes of R210 are 1 to 5. -/
theorem statusCode_eq_zero_iff (st : Status) : statusCode st = 0 ↔ ∀ r, st ≠ .halted r := by
  cases st with
  | running | stopped => simp [statusCode]
  | halted r =>
    have hcode : r.kind.code ≠ 0 := by cases r.kind <;> decide
    simp [statusCode, hcode]

/-- Settles O49: Inspect's components read one by one. -/
theorem inspectShowsTheState : Obligations.InspectShowsTheState := by
  intro s
  refine ⟨fun r => ?_, Vector.length_toList, rfl, rfl, List.reverse_reverse _, (List.length_reverse).symm, rfl,
    by simp [inspect], fun a ha => by simp [inspect, ha], rfl, statusCode_eq_zero_iff s.status, fun r hr => ?_, rfl⟩
  · simp [inspect, State.reg, r.isLt]
  · have hcode : (inspect s).status.code = r.kind.code := congrArg statusCode hr
    rw [hcode]
    refine ⟨?_, ?_, ?_, ?_, ?_⟩ <;> intro hk <;> rw [hk] <;> rfl

end Sys2Proof.Machine
end
